-- ==== Sys2Proof/Word.lean ====
section
/-! DEFINITION. The value types of GSM7-CORE (10_state R10, 00_scope R4 and R7). -/

namespace Sys2Proof

/-- A command word or one word of a response (30_encoding R64). -/
abbrev Word := BitVec 32

/-- An unsigned 7-bit code unit, 0 to 127 (10_state R10; `SEPTET_W` = 7). -/
abbrev Septet := BitVec 7

/-- An unsigned 8-bit value, the unit of both data ports (10_state R10; `OCTET_W` = 8). -/
abbrev Octet := BitVec 8

/-- The 21-bit carrier of a character's codepoint (10_state R10; `CP_W` = 21).
A value that is no Unicode scalar value may be presented to `ENC.FEED`. -/
abbrev Codepoint := BitVec 21

/-- The 14-bit temporary `t` of `PackPut` and `UnpackGet`, which is not state (10_state R27). -/
abbrev Temp := BitVec 14

/-- The escape septet, a constant of the hardware and no entry of the table (40_alphabet R88). -/
def escape : Septet := 0x1B

end Sys2Proof
end

