-- ==== Sys2Proof/Config.lean ====
section
/-! DEFINITION. What is fixed when a block is built (00_scope R4), and the free values of the model
(93 U7). The values this hardware takes stand in Machine/Alphabet.lean. -/

namespace Sys2Proof

/-- The Alphabet Table `(BASIC, EXT)`, each a list of `(septet, codepoint)` pairs as the spec lists them
for a machine; a septet that no pair names is `none` (40_alphabet R80). -/
structure Alphabet where
  basic : List (Septet × Codepoint)
  ext : List (Septet × Codepoint)
  deriving DecidableEq, Repr

/-- `IO_FAIL`: which transfers the platform fails and with what word (00_scope R4, 92 D14). At each data port
the transfers are numbered from 0 as they are asked for; one that no pair names succeeds (log 4). -/
structure IoFail where
  sink : List (Nat × Word)
  source : List (Nat × Word)
  deriving DecidableEq, Repr

/-- `IO_FAIL` = "never", the baseline (00_scope R4, 20_memory R51). -/
def IoFail.never : IoFail := { sink := [], source := [] }

/-- The parameters a block is built with: every `parameter` row of 00_scope R4. -/
structure Config where
  /-- `PAD_FILL`, the value of every padding bit the encoder writes (92 D5; log 7). -/
  padFill : BitVec 1
  /-- `ALPHABET` (92 D6; log 6). -/
  alphabet : Alphabet
  /-- `POS_W`, the width of the decoder's position counter (92 D8; log 8). -/
  posW : Nat
  /-- `IO_FAIL` (92 D14; log 4). -/
  ioFail : IoFail
  /-- `N_ENC`, encoder instances in the block (92 D2; log 9). -/
  nEnc : Nat
  /-- `N_DEC`, decoder instances in the block (92 D2; log 9). -/
  nDec : Nat
  deriving DecidableEq, Repr

/-- FREE VALUE: what `ENC.ACC` holds after the sink's transfer number `n` failed (20_memory R51, 93 U7;
log 5). -/
opaque Config.freeAcc : Nat → BitVec 7

/-- FREE VALUE: what `ENC.K` holds after the sink's transfer number `n` failed (20_memory R51, 93 U7;
log 5). -/
opaque Config.freeK : Nat → BitVec 3

end Sys2Proof
end

