-- ==== Sys2Proof/Machine/Alphabet.lean ====
section
/-! DEFINITION. The Alphabet Table: the default tables (40_alphabet R81, R82), the configuration of this
hardware (00_scope R4), and the three lookups (40_alphabet R84 to R86). -/

namespace Sys2Proof

/-- Rows 0x00 to 0x0F of the default `BASIC` (40_alphabet R81). -/
def basicRows00 : List (Septet × Codepoint) :=
  [(0x00, 0x40), (0x01, 0xA3), (0x02, 0x24), (0x03, 0xA5), (0x04, 0xE8), (0x05, 0xE9),
   (0x06, 0xF9), (0x07, 0xEC), (0x08, 0xF2), (0x09, 0xC7), (0x0A, 0xA), (0x0B, 0xD8),
   (0x0C, 0xF8), (0x0D, 0xD), (0x0E, 0xC5), (0x0F, 0xE5)]

/-- Rows 0x10 to 0x1F of the default `BASIC` (40_alphabet R81). -/
def basicRows10 : List (Septet × Codepoint) :=
  [(0x10, 0x394), (0x11, 0x5F), (0x12, 0x3A6), (0x13, 0x393), (0x14, 0x39B), (0x15, 0x3A9),
   (0x16, 0x3A0), (0x17, 0x3A8), (0x18, 0x3A3), (0x19, 0x398), (0x1A, 0x39E), (0x1C, 0xC6),
   (0x1D, 0xE6), (0x1E, 0xDF), (0x1F, 0xC9)]

/-- Rows 0x20 to 0x2F of the default `BASIC` (40_alphabet R81). -/
def basicRows20 : List (Septet × Codepoint) :=
  [(0x20, 0x20), (0x21, 0x21), (0x22, 0x22), (0x23, 0x23), (0x24, 0xA4), (0x25, 0x25),
   (0x26, 0x26), (0x27, 0x27), (0x28, 0x28), (0x29, 0x29), (0x2A, 0x2A), (0x2B, 0x2B),
   (0x2C, 0x2C), (0x2D, 0x2D), (0x2E, 0x2E), (0x2F, 0x2F)]

/-- Rows 0x30 to 0x3F of the default `BASIC` (40_alphabet R81). -/
def basicRows30 : List (Septet × Codepoint) :=
  [(0x30, 0x30), (0x31, 0x31), (0x32, 0x32), (0x33, 0x33), (0x34, 0x34), (0x35, 0x35),
   (0x36, 0x36), (0x37, 0x37), (0x38, 0x38), (0x39, 0x39), (0x3A, 0x3A), (0x3B, 0x3B),
   (0x3C, 0x3C), (0x3D, 0x3D), (0x3E, 0x3E), (0x3F, 0x3F)]

/-- Rows 0x40 to 0x4F of the default `BASIC` (40_alphabet R81). -/
def basicRows40 : List (Septet × Codepoint) :=
  [(0x40, 0xA1), (0x41, 0x41), (0x42, 0x42), (0x43, 0x43), (0x44, 0x44), (0x45, 0x45),
   (0x46, 0x46), (0x47, 0x47), (0x48, 0x48), (0x49, 0x49), (0x4A, 0x4A), (0x4B, 0x4B),
   (0x4C, 0x4C), (0x4D, 0x4D), (0x4E, 0x4E), (0x4F, 0x4F)]

/-- Rows 0x50 to 0x5F of the default `BASIC` (40_alphabet R81). -/
def basicRows50 : List (Septet × Codepoint) :=
  [(0x50, 0x50), (0x51, 0x51), (0x52, 0x52), (0x53, 0x53), (0x54, 0x54), (0x55, 0x55),
   (0x56, 0x56), (0x57, 0x57), (0x58, 0x58), (0x59, 0x59), (0x5A, 0x5A), (0x5B, 0xC4),
   (0x5C, 0xD6), (0x5D, 0xD1), (0x5E, 0xDC), (0x5F, 0xA7)]

/-- Rows 0x60 to 0x6F of the default `BASIC` (40_alphabet R81). -/
def basicRows60 : List (Septet × Codepoint) :=
  [(0x60, 0xBF), (0x61, 0x61), (0x62, 0x62), (0x63, 0x63), (0x64, 0x64), (0x65, 0x65),
   (0x66, 0x66), (0x67, 0x67), (0x68, 0x68), (0x69, 0x69), (0x6A, 0x6A), (0x6B, 0x6B),
   (0x6C, 0x6C), (0x6D, 0x6D), (0x6E, 0x6E), (0x6F, 0x6F)]

/-- Rows 0x70 to 0x7F of the default `BASIC` (40_alphabet R81). -/
def basicRows70 : List (Septet × Codepoint) :=
  [(0x70, 0x70), (0x71, 0x71), (0x72, 0x72), (0x73, 0x73), (0x74, 0x74), (0x75, 0x75),
   (0x76, 0x76), (0x77, 0x77), (0x78, 0x78), (0x79, 0x79), (0x7A, 0x7A), (0x7B, 0xE4),
   (0x7C, 0xF6), (0x7D, 0xF1), (0x7E, 0xFC), (0x7F, 0xE0)]

/-- The default `BASIC`: 127 entries, 0x1B absent (40_alphabet R81; PRESUMED by the spec, log 6). -/
def defaultBasic : List (Septet × Codepoint) :=
  basicRows00 ++ basicRows10 ++ basicRows20 ++ basicRows30 ++
  basicRows40 ++ basicRows50 ++ basicRows60 ++ basicRows70

/-- The default `EXT`: ten entries (40_alphabet R82; PRESUMED by the spec, log 6). -/
def defaultExt : List (Septet × Codepoint) :=
  [(0x0A, 0xC), (0x14, 0x5E), (0x28, 0x7B), (0x29, 0x7D), (0x2F, 0x5C), (0x3C, 0x5B),
   (0x3D, 0x7E), (0x3E, 0x5D), (0x40, 0x7C), (0x65, 0x20AC)]

/-- The default `ALPHABET` (40_alphabet R81, R82). -/
def defaultAlphabet : Alphabet := { basic := defaultBasic, ext := defaultExt }

/-- The configuration of this hardware: every parameter at the value 00_scope R4 takes. -/
def Config.gsm7Core : Config :=
  { padFill := 1, alphabet := defaultAlphabet, posW := 32, ioFail := .never,
    nEnc := 1, nDec := 1 }

namespace Machine

/-- The pair list's reading as a total function from septets: `BASIC[s]` or `EXT[s]`, a `ROM` read
without side effect (40_alphabet R80, 20_memory R43). -/
def romAt (rows : List (Septet × Codepoint)) (s : Septet) : Option Codepoint :=
  (rows.find? (fun p => p.1 == s)).map (fun p => p.2)

/-- `LutDecB(s)`, basic-table decode; `none` is the answer `Invalid` (40_alphabet R84). -/
def lutDecB (a : Alphabet) (s : Septet) : Option Codepoint := romAt a.basic s

/-- `LutDecX(s)`, extension-table decode; `none` is the answer `Invalid`, with no fall-back to `BASIC`
(40_alphabet R85). -/
def lutDecX (a : Alphabet) (s : Septet) : Option Codepoint := romAt a.ext s

/-- The septet of `rows` that decodes to `cp`, if there is one (40_alphabet R86). -/
def romFind (rows : List (Septet × Codepoint)) (cp : Codepoint) : Option Septet :=
  (rows.find? (fun p => p.2 == cp)).map (fun p => p.1)

/-- `LutEnc(cp)`, the reverse lookup: `(is_extended, septet)`, `BASIC` asked first; `none` is the answer
`Unsupported` (40_alphabet R86). -/
def lutEnc (a : Alphabet) (cp : Codepoint) : Option (Bool × Septet) :=
  match romFind a.basic cp with
  | some s => some (false, s)
  | none =>
    match romFind a.ext cp with
    | some x => some (true, x)
    | none => none

/-- The septet form of a character: one basic septet, or the escape and the extension septet
(30_encoding R60); `none` for a character of neither table. -/
def septetForm (a : Alphabet) (cp : Codepoint) : Option (List Septet) :=
  match lutEnc a cp with
  | none => none
  | some (false, s) => some [s]
  | some (true, x) => some [escape, x]

end Machine

end Sys2Proof
end

