-- ==== Sys2Proof/Syntax.lean ====
section
/-! DEFINITION. The five commands of GSM7-CORE (30_encoding R66; spec/opcode_table.json). -/

namespace Sys2Proof

/-- One constructor per row of spec/opcode_table.json.
No command names a register (10_state R10); the source that `DEC.RST` binds is an input beside the
command word (43_decoder R141), so it is no part of the instruction. -/
inductive Instr where
  /-- `ENC.FEED cp` (42_encoder R120). -/
  | encFeed (cp : Codepoint)
  /-- `ENC.FINISH` (42_encoder R121). -/
  | encFinish
  /-- `ENC.RST` (42_encoder R122). -/
  | encRst
  /-- `DEC.NEXT` (43_decoder R140). -/
  | decNext
  /-- `DEC.RST` (43_decoder R141). -/
  | decRst
  deriving DecidableEq, Repr

end Sys2Proof
end

