-- ==== Sys2Proof/Decode.lean ====
section
/-! DEFINITION. Command words to instructions and back (30_encoding R64 to R68). -/

namespace Sys2Proof

/-- The two command ports (30_encoding R64). -/
inductive Port where
  | enc
  | dec
  deriving DecidableEq, Repr

/-- Why a command word spells no command of any port (30_encoding R68). -/
inductive DecodeError where
  /-- `OP` is 0x0, 0x4 to 0x7 or 0xA to 0xF. -/
  | reservedOp (op : BitVec 4)
  /-- Bits 27:21 are not 0. -/
  | nonzeroZ (z : BitVec 7)
  /-- Bits 20:0 are not 0 in a command without an operand. -/
  | nonzeroArg (arg : BitVec 21)
  deriving DecidableEq, Repr

/-- Field `OP`, bits 31:28 (30_encoding R65). -/
def fieldOp (w : Word) : BitVec 4 := w.extractLsb' 28 4

/-- Field `Z`, bits 27:21 (30_encoding R65). -/
def fieldZ (w : Word) : BitVec 7 := w.extractLsb' 21 7

/-- Field `ARG`, bits 20:0 (30_encoding R65); for `ENC.FEED` the operand `cp`, unsigned and unscaled (R67). -/
def fieldArg (w : Word) : BitVec 21 := w.extractLsb' 0 21

/-- The operation an `OP` and an `ARG` name, `ARG` being 0 but for `ENC.FEED` (30_encoding R66). -/
def decodeOp (op : BitVec 4) (arg : BitVec 21) : Except DecodeError Instr :=
  match op.toNat with
  | 1 => .ok (.encFeed arg)
  | 2 => if arg = 0 then .ok .encFinish else .error (.nonzeroArg arg)
  | 3 => if arg = 0 then .ok .encRst else .error (.nonzeroArg arg)
  | 8 => if arg = 0 then .ok .decNext else .error (.nonzeroArg arg)
  | 9 => if arg = 0 then .ok .decRst else .error (.nonzeroArg arg)
  | _ => .error (.reservedOp op)

/-- The command a word spells, on whichever port its command belongs to (30_encoding R65 to R68). -/
def decode (w : Word) : Except DecodeError Instr :=
  if fieldZ w = 0 then decodeOp (fieldOp w) (fieldArg w) else .error (.nonzeroZ (fieldZ w))

/-- The port that accepts a command (30_encoding R64, R66). -/
def portOf : Instr → Port
  | .encFeed _ => .enc
  | .encFinish => .enc
  | .encRst => .enc
  | .decNext => .dec
  | .decRst => .dec

/-- The command a word spells on port `p`; a word of the other instance's port is illegal there
(30_encoding R68). -/
def decodeAt (p : Port) (w : Word) : Option Instr :=
  match decode w with
  | .error _ => none
  | .ok i => if portOf i = p then some i else none

/-- A word from its three fields (30_encoding R65). -/
def packFields (op : BitVec 4) (z : BitVec 7) (arg : BitVec 21) : Word := op ++ z ++ arg

/-- The word of an instruction (30_encoding R66). -/
def encode : Instr → Word
  | .encFeed cp => packFields 0x1 0 cp
  | .encFinish => packFields 0x2 0 0
  | .encRst => packFields 0x3 0 0
  | .decNext => packFields 0x8 0 0
  | .decRst => packFields 0x9 0 0

/-- Column `match` of the opcode map (30_encoding R66; spec/opcode_table.json). -/
def rowMatch : Instr → Word
  | .encFeed _ => 0x10000000
  | .encFinish => 0x20000000
  | .encRst => 0x30000000
  | .decNext => 0x80000000
  | .decRst => 0x90000000

/-- Column `mask` of the opcode map (30_encoding R66; spec/opcode_table.json). -/
def rowMask : Instr → Word
  | .encFeed _ => 0xFFE00000
  | .encFinish => 0xFFFFFFFF
  | .encRst => 0xFFFFFFFF
  | .decNext => 0xFFFFFFFF
  | .decRst => 0xFFFFFFFF

/-- The host's question of one row: bits above `nbits` are 0, and a value that does not fit the one
32-bit format spells no command (30_encoding R65). -/
def decodeTableWord (nbits w : Nat) : Option Instr :=
  if w % 2 ^ nbits < 2 ^ 32 then (decode (BitVec.ofNat 32 (w % 2 ^ nbits))).toOption else none

end Sys2Proof
end

