-- ==== Sys2Proof/Machine/State.lean ====
section
/-! DEFINITION. The state of GSM7-CORE (10_state, 20_memory R40, 30_encoding R64) and its reset value
(10_state R29). -/

namespace Sys2Proof.Machine

/-- `ENC.ST`: 0 `OPEN`, 1 `CLOSED` (10_state R13). -/
inductive EncStatus where
  | opened
  | closed
  deriving DecidableEq, Repr

/-- `DEC.ST`: 0 `RUN`, 1 `ENDED`, 2 `FAILED`; 3 is never written (10_state R19, 93 U11). -/
inductive DecStatus where
  | run
  | ended
  | failed
  deriving DecidableEq, Repr

/-- `STATUS` of a response, codes 0 to 6; the codes 7 to 15 are never produced (30_encoding R69,
60_exceptions R160, 93 U11). -/
inductive Status where
  | ok
  | unsupportedCharacter
  | invalidSeptet
  | danglingEscape
  | underlyingIOFailure
  | encoderClosed
  | illegalCommand
  deriving DecidableEq, Repr

/-- `KIND` of a response, codes 0 to 2 (30_encoding R69, 93 U11). -/
inductive Kind where
  | none
  | char
  | fin
  deriving DecidableEq, Repr

/-- One response (30_encoding R69): `STATUS`, `KIND` and `VAL` of `RSP0`, and `RSP1`. -/
structure Response where
  status : Status
  kind : Kind
  val : BitVec 21
  aux : Word
  deriving DecidableEq, Repr

/-- `DEC.ERR`, the decoder's error record (10_state R20). -/
structure ErrRecord where
  kind : Status
  val : BitVec 21
  aux : Word
  deriving DecidableEq, Repr

/-- The encoder instance `ENC` (10_state R11 to R15). -/
structure Enc where
  /-- `ENC.ACC` (R11). -/
  acc : BitVec 7
  /-- `ENC.K` (R12). -/
  k : BitVec 3
  /-- `ENC.ST` (R13). -/
  st : EncStatus
  /-- `SINK` (R15), oldest octet first. -/
  sink : List Octet
  /-- The model's own counter: the number of the sink port's next transfer (20_memory R42; log 4, log 5). -/
  writes : Nat
  deriving DecidableEq, Repr

/-- The decoder instance `DEC` (10_state R16 to R22). -/
structure Dec where
  /-- `DEC.ACC` (R16). -/
  acc : BitVec 7
  /-- `DEC.R` (R17). -/
  r : BitVec 3
  /-- `DEC.POS` (R18); the model refuses a count that `POS_W` bits cannot hold (log 8). -/
  pos : BitVec 32
  /-- `DEC.ST` (R19). -/
  st : DecStatus
  /-- `DEC.ERR` (R20). -/
  err : ErrRecord
  /-- `SRC` (R22), first octet first. -/
  src : List Octet
  /-- `SRC.RP` (R22). -/
  rp : Nat
  /-- The model's own counter: the number of the source port's next transfer (20_memory R41; log 4). -/
  reads : Nat
  deriving DecidableEq, Repr

/-- What the host does to the block: a command word on a port, with the source list beside a word on
`DEC`'s port (30_encoding R64), or a hardware reset with the source bound at that time (70_reset R190);
log 1, log 2, log 3. -/
inductive HostEvent where
  | encCommand (w : Word)
  | decCommand (w : Word) (src : List Octet)
  | hardReset (src : List Octet)
  deriving DecidableEq, Repr

/-- The machine: the two instances, and the ports between them and the host. -/
structure State where
  enc : Enc
  dec : Dec
  /-- The source list at `DEC`'s source input, taken by `DEC.RST` (43_decoder R141; log 3). -/
  srcIn : List Octet
  /-- Host events not yet executed, oldest first (30_encoding R64, 70_reset R193; log 1). -/
  pending : List HostEvent
  /-- Responses given on `ENC`'s port, oldest first (30_encoding R64; log 13). -/
  encRsp : List Response
  /-- Responses given on `DEC`'s port, oldest first (30_encoding R64; log 13). -/
  decRsp : List Response
  deriving DecidableEq, Repr

/-- Nothing stops this machine: every error of 60_exceptions is a response to the command that caused it
(R160, R169), so there is no fault to raise (log 15). -/
inductive Fault where
  deriving DecidableEq, Repr

/-- The reasons for which a step has no meaning. -/
inductive Refusal where
  /-- Raised by `exec`'s arm of an instruction that has no meaning in the model (none is left); safe: the
  run ends where the hardware goes on. -/
  | notModelled (mnemonic : String)
  /-- Raised by `DEC.NEXT` when the septet it takes would make `DEC.POS` exceed `2^POS_W - 1`: such a stream
  is outside the spec, which says to refuse the run and not to wrap (10_state R18, 93 U9; log 8); safe:
  nothing can be proved of what the hardware does there. -/
  | positionOverflow
  deriving DecidableEq, Repr

/-- `ENC` after reset (10_state R29). -/
def Enc.reset : Enc :=
  { acc := 0, k := 0, st := .opened, sink := [], writes := 0 }

/-- `DEC` after reset, with no source bound (10_state R29, 70_reset R190 and R192). -/
def Dec.reset : Dec :=
  { acc := 0, r := 0, pos := 0, st := .run, err := { kind := .ok, val := 0, aux := 0 },
    src := [], rp := 0, reads := 0 }

/-- The machine after reset: 10_state R29 for the two instances; no source bound, nothing sent, nothing
answered (log 1, log 3, log 13). -/
def State.reset : State :=
  { enc := Enc.reset, dec := Dec.reset, srcIn := [], pending := [], encRsp := [], decRsp := [] }

/-- `Memory.wf`: the form of the two data spaces. `SINK` and `SRC` are lists of octets, so equal contents
are equal data whatever wrote them (log 10); what is left to ask is that the read pointer stands within
the source (10_state R22). -/
abbrev Memory.wf (s : State) : Prop := s.dec.rp ≤ s.dec.src.length

end Sys2Proof.Machine
end

