-- ==== Sys2Proof/Machine/Flags.lean ====
section
/-! DEFINITION. The two flags, `ENC.ST` and `DEC.ST` (10_state R24), their codes, and the codes of a
response (30_encoding R69). -/

namespace Sys2Proof.Machine

/-- The bit of `ENC.ST` (10_state R13). -/
def encStatusBits : EncStatus → BitVec 1
  | .opened => 0
  | .closed => 1

/-- The bits of `DEC.ST` (10_state R19). -/
def decStatusBits : DecStatus → BitVec 2
  | .run => 0
  | .ended => 1
  | .failed => 2

/-- The number of a status (60_exceptions R160). -/
def statusCode : Status → BitVec 4
  | .ok => 0
  | .unsupportedCharacter => 1
  | .invalidSeptet => 2
  | .danglingEscape => 3
  | .underlyingIOFailure => 4
  | .encoderClosed => 5
  | .illegalCommand => 6

/-- The number of a kind (30_encoding R69). -/
def kindCode : Kind → BitVec 4
  | .none => 0
  | .char => 1
  | .fin => 2

/-- `ENC.ST <- CLOSED` (42_encoder R121). -/
def closeEnc (e : Enc) : Enc := { e with st := .closed }

/-- `DEC.ST <- ENDED` (43_decoder R140). -/
def endDec (d : Dec) : Dec := { d with st := .ended }

/-- `DEC.ST <- FAILED; DEC.ERR <- (kind, val, aux)` (43_decoder R140; 60_exceptions R169). -/
def failDec (kind : Status) (val : BitVec 21) (aux : Word) (d : Dec) : Dec :=
  { d with st := .failed, err := { kind := kind, val := val, aux := aux } }

/-- `ENC.ST <- CLOSED` on a sink failure: `ENC.ACC` and `ENC.K` then hold no specified value, so each
takes a FREE VALUE, a fresh one for each transfer number `n` (20_memory R51, 93 U7; log 5). -/
def sinkFailed (n : Nat) (e : Enc) : Enc :=
  { e with st := .closed, acc := Config.freeAcc n, k := Config.freeK n }

end Sys2Proof.Machine
end

