-- ==== Sys2Proof/Machine/Operands.lean ====
section
/-! DEFINITION. The operand forms: the codepoint of `ENC.FEED` (30_encoding R67), the source beside
`DEC.RST` (43_decoder R141), and how a value is carried in a response (30_encoding R69). -/

namespace Sys2Proof.Machine

/-- The operand `cp` of `ENC.FEED` as the codepoint it stands for: "no scaling, no shift and no sign"
(30_encoding R67). -/
def feedOperand (arg : BitVec 21) : Codepoint := arg

/-- The source `DEC.RST` binds: the list the host holds at the source input (43_decoder R141; log 3). -/
def sourceOperand (s : State) : List Octet := s.srcIn

/-- A septet in `VAL`, bits 6:0, zeros above (30_encoding R69). -/
def septetVal (s : Septet) : BitVec 21 := s.setWidth 21

end Sys2Proof.Machine
end

