-- ==== Sys2Proof/Machine/Ops.lean ====
section
/-! DEFINITION. The shared operations: responses and `raise`, the two transfers, the bit engine
(30_encoding R69, 60_exceptions R169, 20_memory R41 and R42, 41_bit_engine R100 to R102). -/

namespace Sys2Proof.Machine

/-! ### Responses -/

/-- `RSP0`: STATUS 31:28, KIND 27:24, zeros 23:21, VAL 20:0 (30_encoding R69). -/
def rsp0 (r : Response) : Word := statusCode r.status ++ kindCode r.kind ++ (0 : BitVec 3) ++ r.val

/-- `RSP1` (30_encoding R69). -/
def rsp1 (r : Response) : Word := r.aux

/-- `OK/None` (30_encoding R69). -/
def okNone : Response := { status := .ok, kind := .none, val := 0, aux := 0 }

/-- `OK/Char(cp)` (30_encoding R69). -/
def okChar (cp : Codepoint) : Response := { status := .ok, kind := .char, val := cp, aux := 0 }

/-- `OK/End` (30_encoding R69). -/
def okEnd : Response := { status := .ok, kind := .fin, val := 0, aux := 0 }

/-- `raise <Kind>(info)`, the one way an error is reported: the command ends with this response, there is no
saved address, no mode and no vector, and state written before it stays written (00_scope R8,
60_exceptions R169). -/
def raise (status : Status) (val : BitVec 21) (aux : Word) : Response :=
  { status := status, kind := .none, val := val, aux := aux }

/-- `UnsupportedCharacter(cp)` (60_exceptions R161). -/
def unsupportedCharacter (cp : Codepoint) : Response := raise .unsupportedCharacter cp 0

/-- `EncoderClosed`, with the refused codepoint or 0 (60_exceptions R165). -/
def encoderClosed (cp : Codepoint) : Response := raise .encoderClosed cp 0

/-- `UnderlyingIOFailure(w)` (60_exceptions R164). -/
def underlyingIOFailure (w : Word) : Response := raise .underlyingIOFailure 0 w

/-- `IllegalCommand`, with the offending word (60_exceptions R166). -/
def illegalCommand (w : Word) : Response := raise .illegalCommand 0 w

/-- A decode error: `DEC.ST` and `DEC.ERR` are written, then it is raised (43_decoder R140; 60_exceptions
R162 to R164, R169). -/
def raiseDec (kind : Status) (val : BitVec 21) (aux : Word) (d : Dec) : Dec × Response :=
  (failDec kind val aux d, raise kind val aux)

/-- "raise the error stored in DEC.ERR": same kind, same val, same aux; nothing read (43_decoder R140). -/
def raiseStored (d : Dec) : Dec × Response := (d, raise d.err.kind d.err.val d.err.aux)

/-- One response on `ENC`'s port to the command that took the encoder to `p.1` (30_encoding R64). -/
def answerEnc (s : State) (p : Enc × Response) : State :=
  { s with enc := p.1, encRsp := s.encRsp ++ [p.2] }

/-- One response on `DEC`'s port (30_encoding R64). -/
def answerDec (s : State) (p : Dec × Response) : State :=
  { s with dec := p.1, decRsp := s.decRsp ++ [p.2] }

/-- An illegal word on port `p`: answered, nothing changed, nothing read, nothing written
(30_encoding R68, 60_exceptions R166). -/
def answerIllegal (p : Port) (w : Word) (s : State) : State :=
  match p with
  | .enc => answerEnc s (s.enc, illegalCommand w)
  | .dec => answerDec s (s.dec, illegalCommand w)

/-! ### Transfers -/

/-- "if the platform fails this transfer (only if IO_FAIL allows)": the word with which transfer number `n`
of a port fails, or `none` (20_memory R41, R42, R51; log 4). -/
def failureAt (rows : List (Nat × Word)) (n : Nat) : Option Word :=
  (rows.find? (fun p => p.1 == n)).map (fun p => p.2)

/-- What `SrcRead` answers (20_memory R41). -/
inductive SrcAnswer where
  | fail (w : Word)
  | exhausted
  | octet (b : Octet)
  deriving DecidableEq, Repr

/-- `SrcRead()`, the only memory read (20_memory R41). -/
def srcRead (c : Config) (d : Dec) : SrcAnswer × Dec :=
  match failureAt c.ioFail.source d.reads with
  | some w => (.fail w, { d with reads := d.reads + 1 })
  | none =>
    match d.src[d.rp]? with
    | none => (.exhausted, { d with reads := d.reads + 1 })
    | some b => (.octet b, { d with reads := d.reads + 1, rp := d.rp + 1 })

/-- `SinkWrite(v)`, the only memory write: `some w` is `Fail(w)`, `none` is `Done` (20_memory R42). -/
def sinkWrite (c : Config) (v : Octet) (e : Enc) : Option Word × Enc :=
  match failureAt c.ioFail.sink e.writes with
  | some w => (some w, { e with writes := e.writes + 1 })
  | none => (none, { e with writes := e.writes + 1, sink := e.sink ++ [v] })

/-! ### The bit engine -/

/-- `PackPut(s)`: one septet into the output bit stream; `some w` where it raised
`UnderlyingIOFailure(w)` (41_bit_engine R100). -/
def packPut (c : Config) (s : Septet) (e : Enc) : Option Word × Enc :=
  let t : Temp := e.acc.setWidth 14 ||| (s.setWidth 14 <<< e.k.toNat)
  if 8 ≤ e.k.toNat + 7 then
    match sinkWrite c (t.extractLsb' 0 8) e with
    | (some w, e1) => (some w, sinkFailed e.writes e1)
    | (none, e1) =>
      (none, { e1 with acc := (t.extractLsb' 8 6).setWidth 7, k := BitVec.ofNat 3 (e.k.toNat + 7 - 8) })
  else (none, { e with acc := t.extractLsb' 0 7, k := 7 })

/-- The padding bits of the last octet, each equal to `PAD_FILL`, at positions 7 to `ENC.K`
(41_bit_engine R101; 92 D5, log 7). -/
def padBits (padFill : BitVec 1) (k : BitVec 3) : Octet :=
  if padFill = 1 then (0xFF : Octet) <<< k.toNat else 0

/-- `PackFlush()`: the last, partial octet with its padding; `some w` where it raised
`UnderlyingIOFailure(w)` (41_bit_engine R101). -/
def packFlush (c : Config) (e : Enc) : Option Word × Enc :=
  if e.k = 0 then (none, e)
  else
    match sinkWrite c (e.acc.setWidth 8 ||| padBits c.padFill e.k) e with
    | (some w, e1) => (some w, sinkFailed e.writes e1)
    | (none, e1) => (none, { e1 with acc := 0, k := 0 })

/-- What `UnpackGet` answers (41_bit_engine R102). -/
inductive Unpacked where
  | septet (s : Septet)
  | exhausted
  | fail (w : Word)
  deriving DecidableEq, Repr

/-- `UnpackGet()`: the next septet of the input bit stream (41_bit_engine R102). -/
def unpackGet (c : Config) (d : Dec) : Unpacked × Dec :=
  if d.r = 7 then (.septet d.acc, { d with acc := 0, r := 0 })
  else
    match srcRead c d with
    | (.fail w, d1) => (.fail w, d1)
    | (.exhausted, d1) => (.exhausted, d1)
    | (.octet b, d1) =>
      let t : Temp := d.acc.setWidth 14 ||| (b.setWidth 14 <<< d.r.toNat)
      (.septet (t.extractLsb' 0 7), { d1 with acc := t.extractLsb' 7 7, r := d.r + 1 })

/-- `DEC.POS <- DEC.POS + 1`, or `none` where the count would exceed `2^POS_W - 1` (43_decoder R140,
R144; 93 U9, log 8). -/
def countSeptet (c : Config) (d : Dec) : Option Dec :=
  if d.pos.toNat + 1 < 2 ^ c.posW then some { d with pos := d.pos + 1 } else none

/-! ### Reset -/

/-- The fresh encoder of `ENC.RST` and of a hardware reset; the number of the next
transfer goes on (42_encoder R122, 10_state R29; log 4, log 5). -/
def freshEnc (e : Enc) : Enc := { e with acc := 0, k := 0, st := .opened, sink := [] }

/-- The fresh decoder of `DEC.RST` and of a hardware reset, on the source `src`; the number of the next
transfer goes on (43_decoder R141, 10_state R29; log 4). -/
def freshDec (src : List Octet) (d : Dec) : Dec :=
  { d with acc := 0, r := 0, pos := 0, st := .run, err := { kind := .ok, val := 0, aux := 0 },
           src := src, rp := 0 }

/-- A hardware reset: the effect of `ENC.RST` and of `DEC.RST` on the bound source, with no response,
since no command was sent (70_reset R190, R191; log 2). -/
def hardwareReset (s : State) : State :=
  { s with enc := freshEnc s.enc, dec := freshDec (sourceOperand s) s.dec }

end Sys2Proof.Machine
end

