-- ==== Sys2Proof/Machine/Decoder.lean ====
section
/-! DEFINITION. The decoder commands (43_decoder R140, R141), for any configuration, and the meanings of
this hardware. -/

namespace Sys2Proof.Machine

/-- What a table answered for the septet `x` at position `p`: the character, or `InvalidSeptet(x, p)`
(43_decoder R140). -/
def resolve (found : Option Codepoint) (x : Septet) (p : BitVec 32) (d : Dec) : Dec × Response :=
  match found with
  | some cp => (d, okChar cp)
  | none => raiseDec .invalidSeptet (septetVal x) p d

/-- `DEC.NEXT` after the escape at position `p` (43_decoder R140, the branch of `s = 0x1B`). -/
def decEscaped (c : Config) (p : BitVec 32) (d : Dec) : Except Refusal (Dec × Response) :=
  match unpackGet c d with
  | (.exhausted, d1) => .ok (raiseDec .danglingEscape (septetVal escape) p d1)
  | (.fail w, d1) => .ok (raiseDec .underlyingIOFailure 0 w d1)
  | (.septet x, d1) =>
    match countSeptet c d1 with
    | none => .error .positionOverflow
    | some d2 => .ok (resolve (lutDecX c.alphabet x) x (p + 1) d2)

/-- `DEC.NEXT` in state `RUN` (43_decoder R140). -/
def decRun (c : Config) (d : Dec) : Except Refusal (Dec × Response) :=
  match unpackGet c d with
  | (.exhausted, d1) => .ok (endDec d1, okEnd)
  | (.fail w, d1) => .ok (raiseDec .underlyingIOFailure 0 w d1)
  | (.septet s, d1) =>
    match countSeptet c d1 with
    | none => .error .positionOverflow
    | some d2 =>
      if s = escape then decEscaped c d.pos d2
      else .ok (resolve (lutDecB c.alphabet s) s d.pos d2)

/-- `DEC.NEXT()` (43_decoder R140). -/
def decNext (c : Config) (d : Dec) : Except Refusal (Dec × Response) :=
  match d.st with
  | .failed => .ok (raiseStored d)
  | .ended => .ok (d, okEnd)
  | .run => decRun c d

/-- `DEC.RST(src)` (43_decoder R141). -/
def decRst (src : List Octet) (d : Dec) : Dec × Response := (freshDec src d, okNone)

/-- The meaning of `DEC.NEXT` in a block built with `c` (43_decoder R140). -/
def execDecNextIn (c : Config) (s : State) : Host.Outcome State Fault Refusal :=
  match decNext c s.dec with
  | .ok p => .next (answerDec s p)
  | .error r => .refused r

/-- The meaning of `DEC.NEXT` in this hardware (43_decoder R140). -/
def execDecNext (s : State) : Host.Outcome State Fault Refusal :=
  execDecNextIn Config.gsm7Core s

/-- The meaning of `DEC.RST`, binding the source the host holds at the source input (43_decoder R141). -/
def execDecRst (s : State) : Host.Outcome State Fault Refusal :=
  .next (answerDec s (decRst (sourceOperand s) s.dec))

end Sys2Proof.Machine
end

