-- ==== Sys2Proof/Machine/Encoder.lean ====
section
/-! DEFINITION. The encoder commands (42_encoder R120 to R122), for any configuration, and the meanings
of this hardware. -/

namespace Sys2Proof.Machine

/-- The response to an encoder command whose packing ended in `w`: `UnderlyingIOFailure(w)`, or `OK/None`
(42_encoder R120, R121). -/
def packResponse : Option Word → Response
  | some w => underlyingIOFailure w
  | none => okNone

/-- `PackPut` of each septet in order, ending at the first that raises (42_encoder R120). -/
def packAll (c : Config) : List Septet → Enc → Option Word × Enc
  | [], e => (none, e)
  | s :: l, e =>
    match packPut c s e with
    | (some w, e1) => (some w, e1)
    | (none, e1) => packAll c l e1

/-- `ENC.FEED(cp)` (42_encoder R120). -/
def encFeed (c : Config) (cp : Codepoint) (e : Enc) : Enc × Response :=
  match e.st with
  | .closed => (e, encoderClosed cp)
  | .opened =>
    match lutEnc c.alphabet cp with
    | none => (e, unsupportedCharacter cp)
    | some (false, s) => ((packAll c [s] e).2, packResponse (packAll c [s] e).1)
    | some (true, x) => ((packAll c [escape, x] e).2, packResponse (packAll c [escape, x] e).1)

/-- `ENC.FINISH()` (42_encoder R121). -/
def encFinish (c : Config) (e : Enc) : Enc × Response :=
  match e.st with
  | .closed => (e, encoderClosed 0)
  | .opened =>
    match packFlush c e with
    | (some w, e1) => (e1, underlyingIOFailure w)
    | (none, e1) => (closeEnc e1, okNone)

/-- `ENC.RST()` (42_encoder R122). -/
def encRst (e : Enc) : Enc × Response := (freshEnc e, okNone)

/-- The meaning of `ENC.FEED` in a block built with `c` (42_encoder R120). -/
def execEncFeedIn (c : Config) (cp : BitVec 21) (s : State) : Host.Outcome State Fault Refusal :=
  .next (answerEnc s (encFeed c (feedOperand cp) s.enc))

/-- The meaning of `ENC.FINISH` in a block built with `c` (42_encoder R121). -/
def execEncFinishIn (c : Config) (s : State) : Host.Outcome State Fault Refusal :=
  .next (answerEnc s (encFinish c s.enc))

/-- The meaning of `ENC.FEED` in this hardware (42_encoder R120). -/
def execEncFeed (cp : BitVec 21) (s : State) : Host.Outcome State Fault Refusal :=
  execEncFeedIn Config.gsm7Core cp s

/-- The meaning of `ENC.FINISH` in this hardware (42_encoder R121). -/
def execEncFinish (s : State) : Host.Outcome State Fault Refusal :=
  execEncFinishIn Config.gsm7Core s

/-- The meaning of `ENC.RST` (42_encoder R122). -/
def execEncRst (s : State) : Host.Outcome State Fault Refusal :=
  .next (answerEnc s (encRst s.enc))

end Sys2Proof.Machine
end

