-- ==== Sys2Proof/Machine/Dispatch.lean ====
section
/-! DEFINITION. Every instruction and its meaning. -/

namespace Sys2Proof.Machine

def exec (i : Instr) (s : State) : Host.Outcome State Fault Refusal :=
  match i with
  | .encFeed cp => Sys2Proof.Machine.execEncFeed cp s
  | .encFinish => Sys2Proof.Machine.execEncFinish s
  | .encRst => Sys2Proof.Machine.execEncRst s
  | .decNext => Sys2Proof.Machine.execDecNext s
  | .decRst => Sys2Proof.Machine.execDecRst s

end Sys2Proof.Machine
end

