-- ==== Sys2Proof/Machine/Fetch.lean ====
section
/-! DEFINITION. Taking the host's next event: there is no program counter and no fetch (10_state R23), the
"next instruction" is whatever the host sends next (log 1). -/

namespace Sys2Proof.Machine

/-- What the block finds at its ports. -/
inductive Fetched where
  /-- No event: "the block is idle between commands and loses nothing while idle" (60_exceptions R175). -/
  | idle
  /-- A hardware reset (70_reset R190). -/
  | reset (s : State)
  /-- A word that spells no command of the port it came on (30_encoding R68). -/
  | illegal (p : Port) (w : Word) (s : State)
  /-- A command of the port it came on. -/
  | run (i : Instr) (s : State)

/-- A word on port `p` with the state it is executed in (30_encoding R64, R68). -/
def fetchWord (p : Port) (w : Word) (s : State) : Fetched :=
  match decodeAt p w with
  | some i => .run i s
  | none => .illegal p w s

/-- The oldest pending event is taken off the list; one that carries a source puts it on the source input
(log 1, log 3). -/
def fetch (s : State) : Fetched :=
  match s.pending with
  | [] => .idle
  | .encCommand w :: rest => fetchWord .enc w { s with pending := rest }
  | .decCommand w src :: rest => fetchWord .dec w { s with pending := rest, srcIn := src }
  | .hardReset src :: rest => .reset { s with pending := rest, srcIn := src }

/-- The event that sends word `w` to the port its bit 31 names: the `ENC` and `DEC` opcodes differ in
bit 31 (92 D3); the source input keeps what it holds (log 1). -/
def commandEvent (s : State) (w : Word) : HostEvent :=
  if w.getLsbD 31 then .decCommand w s.srcIn else .encCommand w

/-- The host sends `w` as the very next event (log 1). -/
def sendNext (s : State) (w : Word) : State := { s with pending := commandEvent s w :: s.pending }

end Sys2Proof.Machine
end

