-- ==== Sys2Proof/Machine/Step.lean ====
section
/-! DEFINITION. One step of the block: one host event, each command one atomic step (00_scope R5). -/

namespace Sys2Proof.Machine

/-- One step (00_scope R5; log 1). -/
def step (s : State) : Host.Outcome State Fault Refusal :=
  match fetch s with
  | .idle => .next s
  | .reset s1 => .next (hardwareReset s1)
  | .illegal p w s1 => .next (answerIllegal p w s1)
  | .run i s1 => exec i s1

/-- `s` with the command whose bits are `w` as the next the host sends, on the port bit 31 names (log 1). -/
def State.withFetchWord (s : State) (nbits w : Nat) : State :=
  sendNext s (BitVec.ofNat 32 (w % 2 ^ nbits))

end Sys2Proof.Machine
end

