-- ==== Sys2Proof/Machine/Block.lean ====
section
/-! DEFINITION. The whole machine for any configuration of 00_scope R4; `exec` and `step` are this at the
values R4 takes. -/

namespace Sys2Proof.Machine

/-- Every instruction's meaning in a block built with `c` (00_scope R4). -/
def execIn (c : Config) (i : Instr) (s : State) : Host.Outcome State Fault Refusal :=
  match i with
  | .encFeed cp => execEncFeedIn c cp s
  | .encFinish => execEncFinishIn c s
  | .encRst => execEncRst s
  | .decNext => execDecNextIn c s
  | .decRst => execDecRst s

/-- One step of a block built with `c` (00_scope R4, R5; log 1). -/
def stepIn (c : Config) (s : State) : Host.Outcome State Fault Refusal :=
  match fetch s with
  | .idle => .next s
  | .reset s1 => .next (hardwareReset s1)
  | .illegal p w s1 => .next (answerIllegal p w s1)
  | .run i s1 => execIn c i s1

/-- `k` steps of a block built with `c`, to the first that is no next state. -/
def runIn (c : Config) : Nat → State → Host.Outcome State Fault Refusal
  | 0, s => .next s
  | k + 1, s =>
    match stepIn c s with
    | .next s1 => runIn c k s1
    | .fault f => .fault f
    | .refused r => .refused r

end Sys2Proof.Machine
end

