-- ==== Sys2Proof/Machine/Pseudo.lean ====
section
/-! DEFINITION. The two pseudo-instructions, each a sequence of commands and nothing more
(30_encoding R72), on one instance. -/

namespace Sys2Proof.Machine

/-- `ENC.STR`: feed in order, stop at the first response that is not `OK` and give it as the result
(30_encoding R72). -/
def encStr (c : Config) : List Codepoint → Enc → Enc × Response
  | [], e => (e, okNone)
  | cp :: rest, e =>
    match encFeed c cp e with
    | (e1, r) => if r.status = .ok then encStr c rest e1 else (e1, r)

/-- What `DEC.ALL` gives: the collected characters, the response it stopped at and the decoder then; or the
refusal a `DEC.NEXT` ended in; or `outOfFuel` where the bound on the number of commands was too small. -/
inductive DecAllResult where
  | stopped (text : List Codepoint) (last : Response) (d : Dec)
  | refused (r : Refusal)
  | outOfFuel
  deriving DecidableEq, Repr

/-- `DEC.ALL` with at most `fuel` commands, `text` collected so far (30_encoding R72). -/
def decAllFuel (c : Config) : Nat → List Codepoint → Dec → DecAllResult
  | 0, _, _ => .outOfFuel
  | n + 1, text, d =>
    match decNext c d with
    | .error r => .refused r
    | .ok (d1, r) =>
      if r.status = .ok ∧ r.kind = .char then decAllFuel c n (text ++ [r.val]) d1
      else .stopped text r d1

/-- A number of commands that `DEC.ALL` never needs more of: one for each whole septet left, 7 bits each, and
one for the end (30_encoding R72, 43_decoder R145). -/
def decAllBound (d : Dec) : Nat := (8 * (d.src.length - d.rp) + d.r.toNat) / 7 + 1

/-- `DEC.ALL` (30_encoding R72). -/
def decAll (c : Config) (d : Dec) : DecAllResult := decAllFuel c (decAllBound d) [] d

end Sys2Proof.Machine
end

