-- ==== Sys2Proof/WellFormed.lean ====
section
/-! DEFINITION. When an instruction, an Alphabet Table and a configuration are well formed
(30_encoding R67; 40_alphabet R83; 00_scope R4). -/

namespace Sys2Proof

/-- Every instruction is well formed: the one operand of the command set is a 21-bit value and
"All 2^21 values are accepted by the decoder of the command word" (30_encoding R67). -/
def Instr.wellFormed : Instr → Bool
  | .encFeed _ => true
  | .encFinish => true
  | .encRst => true
  | .decNext => true
  | .decRst => true

/-- A Unicode scalar value: 0 to 0x10FFFF without 0xD800 to 0xDFFF (10_state R10, 93 G3). -/
def isScalarValue (cp : Codepoint) : Bool :=
  decide (cp.toNat ≤ 0x10FFFF) && !(decide (0xD800 ≤ cp.toNat) && decide (cp.toNat ≤ 0xDFFF))

/-- The pair list names each septet once and only scalar values: it is a partial function from `Septet`
to `Codepoint` (40_alphabet R80, 10_state R10; DEDUCED, log 14). -/
def rowsAreFunction (rows : List (Septet × Codepoint)) : Bool :=
  decide (rows.map (fun p => p.1)).Nodup && rows.all (fun p => isScalarValue p.2)

/-- 40_alphabet R83 (a): the escape septet is never itself a basic-table output character. -/
def Alphabet.escapeReserved (a : Alphabet) : Bool :=
  (Machine.lutDecB a escape).isNone

/-- 40_alphabet R83 (b) and (c): no two septets of one table decode to the same character. -/
def rowsInjective (rows : List (Septet × Codepoint)) : Bool :=
  decide (rows.map (fun p => p.2)).Nodup

/-- 40_alphabet R83 (d): no codepoint is in both tables. -/
def Alphabet.disjoint (a : Alphabet) : Bool :=
  a.basic.all (fun p => a.ext.all (fun q => p.2 != q.2))

/-- 40_alphabet R83 (f): the two entries the source's fixture needs. -/
def Alphabet.fixture (a : Alphabet) : Bool :=
  Machine.lutDecB a 0x54 == some 0x54 && Machine.lutDecB a 0x74 == some 0x74

/-- Well-formedness of `ALPHABET`, all of 40_alphabet R83 (a) to (f), and that the pair lists are
functions (R80). -/
def Alphabet.wellFormed (a : Alphabet) : Bool :=
  rowsAreFunction a.basic && rowsAreFunction a.ext && a.escapeReserved &&
  rowsInjective a.basic && rowsInjective a.ext && a.disjoint &&
  decide (a.ext.length < 128) && a.fixture

/-- A configuration this model speaks of: a well-formed table (40_alphabet R83), one encoder and one
decoder (00_scope R4, log 9), and a position that fits the 32 bits of `RSP1` (30_encoding R69, log 8). -/
def Config.wellFormed (c : Config) : Bool :=
  c.alphabet.wellFormed && decide (1 ≤ c.posW) && decide (c.posW ≤ 32) &&
  decide (c.nEnc = 1) && decide (c.nDec = 1)

/-- Building a block: an ill-formed parameter "is refused when the block is built" (40_alphabet R83,
93 U5 and U10). -/
def Config.build (c : Config) : Option Config :=
  if c.wellFormed then some c else none

end Sys2Proof
end

