-- ==== Sys2Proof/Safety.lean ====
section
/-! DEFINITION. The terms claims are stated in: the invariants of 10_state R14, R20 and R21, when a run is
over (70_reset R199), which responses a port gives (30_encoding R70), and the bits of the two streams
(20_memory R44). -/

namespace Sys2Proof.Machine

/-! ### Invariants -/

/-- 10_state R14 with 41_bit_engine R103: while `OPEN`, the held bits fit `ENC.K`, and sink and held bits
together are whole septets; when `CLOSED`, nothing is held, or a sink failure left free values. -/
def encInv (e : Enc) : Prop :=
  match e.st with
  | .opened => e.acc.toNat < 2 ^ e.k.toNat ∧ (8 * e.sink.length + e.k.toNat) % 7 = 0
  | .closed => (e.acc = 0 ∧ e.k = 0) ∨ ∃ n < e.writes, e.acc = Config.freeAcc n ∧ e.k = Config.freeK n

/-- What `DEC.ERR` holds while `FAILED` (10_state R20; 60_exceptions R162 to R164): the septet and the
position of the last septet handed out, or the platform's word. -/
def errInv (d : Dec) : Prop :=
  (d.err.kind = .invalidSeptet ∧ d.err.val.toNat < 128 ∧ d.err.aux.toNat + 1 = d.pos.toNat) ∨
  (d.err.kind = .danglingEscape ∧ d.err.val = 0x1B ∧ d.err.aux.toNat + 1 = d.pos.toNat) ∨
  (d.err.kind = .underlyingIOFailure ∧ d.err.val = 0)

/-- What each status of `DEC` says (10_state R19, R20): `DEC.ERR` is zero unless `FAILED`; when `ENDED` the
source is used up and fewer than 7 bits are held. -/
def statusInv (d : Dec) : Prop :=
  match d.st with
  | .run => d.err = { kind := .ok, val := 0, aux := 0 }
  | .ended => d.err = { kind := .ok, val := 0, aux := 0 } ∧ d.rp = d.src.length ∧ d.r ≠ 7
  | .failed => errInv d

/-- 10_state R21: the held bits fit `DEC.R`, `DEC.R = DEC.POS mod 8`, and exactly the octets needed have
been read. -/
def cursorInv (d : Dec) : Prop :=
  d.acc.toNat < 2 ^ d.r.toNat ∧ d.r.toNat = d.pos.toNat % 8 ∧
  d.rp = (7 * d.pos.toNat + 7) / 8 ∧ d.rp ≤ d.src.length

/-- The invariant of the machine. -/
def Inv (s : State) : Prop := encInv s.enc ∧ cursorInv s.dec ∧ statusInv s.dec

/-! ### The platform's failures -/

/-- None of the `q` transfers of a port from number `n` on fails (20_memory R51). -/
abbrev accepts (rows : List (Nat × Word)) (n q : Nat) : Prop := ∀ j, j < q → failureAt rows (n + j) = none

/-- From number `n` on, `q` transfers of a port succeed and the next one fails with `w` (20_memory R51). -/
abbrev failsAfter (rows : List (Nat × Word)) (n q : Nat) (w : Word) : Prop :=
  accepts rows n q ∧ failureAt rows (n + q) = some w

/-- How many octets `q` septets on top of `k` held bits complete (42_encoder R120 b). -/
abbrev octetCount (k : BitVec 3) (q : Nat) : Nat := (k.toNat + 7 * q) / 8

/-! ### Packing and unpacking as sums -/

/-- The value of the held bits and the septets of `form` above them, as one number: held bits and new bits
do not overlap, so joining them is adding (41_bit_engine R106). -/
def heldValue (e : Enc) (form : List Septet) : Nat :=
  e.acc.toNat + 2 ^ e.k.toNat * form.foldr (fun s v => s.toNat + 128 * v) 0

/-- The whole octets that `form` completes, `floor((ENC.K + 7 * q) / 8)` of them (42_encoder R120 b). -/
def completedOctets (e : Enc) (form : List Septet) : List Octet :=
  (List.range (octetCount e.k form.length)).map
    (fun j => BitVec.ofNat 8 (heldValue e form / 256 ^ j))

/-- `ENC` after the septets of `form` are packed and every octet was accepted (41_bit_engine R100, in
numbers). -/
def afterPacking (e : Enc) (form : List Septet) : Enc :=
  { e with
    acc := BitVec.ofNat 7 (heldValue e form / 256 ^ octetCount e.k form.length)
    k := BitVec.ofNat 3 ((e.k.toNat + 7 * form.length) % 8)
    sink := e.sink ++ completedOctets e form
    writes := e.writes + octetCount e.k form.length }

/-- `DEC` hands out the septet `x` and counts it, and is `d1` then (41_bit_engine R102, 43_decoder R144, in
numbers). -/
def takesSeptet (c : Config) (d : Dec) (x : Septet) (d1 : Dec) : Prop :=
  (d.r = 7 ∧ x = d.acc ∧ d1 = { d with acc := 0, r := 0, pos := d.pos + 1 }) ∨
  (d.r ≠ 7 ∧ failureAt c.ioFail.source d.reads = none ∧ ∃ b : Octet, d.src[d.rp]? = some b ∧
    x = BitVec.ofNat 7 (d.acc.toNat + 2 ^ d.r.toNat * b.toNat) ∧
    d1 = { d with acc := BitVec.ofNat 7 ((d.acc.toNat + 2 ^ d.r.toNat * b.toNat) / 128),
                  r := d.r + 1, rp := d.rp + 1, reads := d.reads + 1, pos := d.pos + 1 })

/-- `DEC` asks for a septet with fewer than 7 bits held and the source used up (43_decoder R145). -/
def runsOut (c : Config) (d d1 : Dec) : Prop :=
  d.r ≠ 7 ∧ failureAt c.ioFail.source d.reads = none ∧ d.src[d.rp]? = none ∧
  d1 = { d with reads := d.reads + 1 }

/-- `DEC` asks for a septet and the platform fails the read with `w` (20_memory R51). -/
def readFails (c : Config) (d : Dec) (w : Word) (d1 : Dec) : Prop :=
  d.r ≠ 7 ∧ failureAt c.ioFail.source d.reads = some w ∧ d1 = { d with reads := d.reads + 1 }

/-! ### The end of a run -/

/-- A decoding run is complete (70_reset R199). -/
def decodingComplete (d : Dec) : Bool := decide (d.st = .ended)

/-- A decoding run was aborted by an error (70_reset R199). -/
def decodingAborted (d : Dec) : Bool := decide (d.st = .failed)

/-- `t` is the end of an encoding run: `ENC.FINISH` has just answered `OK` (70_reset R199). -/
def encodingOver (s t : State) : Prop :=
  exec .encFinish s = .next t ∧ t.encRsp.getLast? = some okNone

/-! ### The responses of each command -/

/-- The responses a command can give when it is the command on the port (30_encoding R70). -/
def mayAnswer (i : Instr) (r : Response) : Prop :=
  match i with
  | .encFeed cp => r = okNone ∨ r = unsupportedCharacter cp ∨ r = encoderClosed cp ∨ ∃ w, r = underlyingIOFailure w
  | .encFinish => r = okNone ∨ r = encoderClosed 0 ∨ ∃ w, r = underlyingIOFailure w
  | .encRst => r = okNone
  | .decNext =>
    (∃ cp, r = okChar cp) ∨ r = okEnd ∨ (∃ x p, r = raise .invalidSeptet (septetVal x) p) ∨
    (∃ p, r = raise .danglingEscape (septetVal escape) p) ∨ ∃ w, r = underlyingIOFailure w
  | .decRst => r = okNone

/-! ### Bits of the streams -/

/-- The low `n` bits of `v`, least significant bit first (00_scope R7). -/
def lowBits {w : Nat} (n : Nat) (v : BitVec w) : List Bool := (List.range n).map v.getLsbD

/-- The bits of an octet stream in the order they are written or read (20_memory R44). -/
def octetBits (o : List Octet) : List Bool := o.flatMap (lowBits 8)

/-- The bits of a septet stream in order (20_memory R44). -/
def septetBits (l : List Septet) : List Bool := l.flatMap (lowBits 7)

/-- Stream bit `j` of the octet stream `o`: bit `j mod 8` of octet `floor(j / 8)` (20_memory R44). -/
def streamBit (o : List Octet) (j : Nat) : Option Bool := (o[j / 8]?).map (fun b => b.getLsbD (j % 8))

/-- The septet stream of a text: the septet forms of its characters, refused ones not counting
(42_encoder R125, 30_encoding R60). -/
def textSeptets (a : Alphabet) (text : List Codepoint) : List Septet :=
  text.flatMap (fun cp => (septetForm a cp).getD [])

/-- `ENC.FEED` of each character in order, whatever each answers (42_encoder R125). -/
def feedEach (c : Config) (text : List Codepoint) (e : Enc) : Enc :=
  text.foldl (fun e cp => (encFeed c cp e).1) e

/-- `UnpackGet` again and again, at most `n` times, until it answers no septet: the septets answered, and the
decoder then (41_bit_engine R105). -/
def unpackAll (c : Config) : Nat → Dec → List Septet × Dec
  | 0, d => ([], d)
  | n + 1, d =>
    match unpackGet c d with
    | (.septet s, d1) => (s :: (unpackAll c n d1).1, (unpackAll c n d1).2)
    | (.exhausted, d1) => ([], d1)
    | (.fail _, d1) => ([], d1)

/-- The encoder right after `ENC.RST` (10_state R29). -/
def isFreshEnc (e : Enc) : Prop := e.acc = 0 ∧ e.k = 0 ∧ e.st = .opened ∧ e.sink = []

/-- The decoder right after `DEC.RST src` (10_state R29). -/
def isFreshDec (src : List Octet) (d : Dec) : Prop :=
  d.acc = 0 ∧ d.r = 0 ∧ d.pos = 0 ∧ d.st = .run ∧ d.src = src ∧ d.rp = 0

/-- Two runs of `DEC.ALL` gave the host the same characters and stopped at the same response. -/
def sameAnswers : DecAllResult → DecAllResult → Prop
  | .stopped t r _, .stopped t' r' _ => t = t' ∧ r = r'
  | .refused r, .refused r' => r = r'
  | _, _ => False

/-- The host event resets the encoder: `ENC.RST` on its port, or a hardware reset (70_reset R190). -/
def resetsEncoder : HostEvent → Bool
  | .encCommand w => decide (decodeAt .enc w = some .encRst)
  | .decCommand _ _ => false
  | .hardReset _ => true

/-- The septet whose bits are all `PAD_FILL` (43_decoder R146). -/
def padSeptet (c : Config) : Septet := if c.padFill = 1 then 0x7F else 0

end Sys2Proof.Machine
end

