-- ==== Sys2Proof/Certificates/Slice0/Obligations.lean ====
section
/-! DEFINITION. The statements about GSM7-CORE that are put to the provers. -/

open Sys2Proof Sys2Proof.Machine

/-! ### Command words and ports -/

/-- 30_encoding section 2: a word decodes to an instruction exactly when it is that instruction's word, so
every operand bit is kept and every legal word has one meaning. -/
def Obligations.DecodeAndEncodeAgree : Prop :=
  ∀ (w : Word) (i : Instr), decode w = .ok i ↔ encode i = w

/-- R66, R67: the five rows of the opcode map by their match and mask, the operand of `ENC.FEED` being bits
20:0, and the port of each row. -/
def Obligations.WordSpellsCommandByMatchAndMask : Prop :=
  ∀ w : Word,
    (∀ cp, decode w = .ok (.encFeed cp) ↔ w &&& 0xFFE00000 = 0x10000000 ∧ cp = w.extractLsb' 0 21) ∧
    (decode w = .ok .encFinish ↔ w &&& 0xFFFFFFFF = 0x20000000) ∧
    (decode w = .ok .encRst ↔ w &&& 0xFFFFFFFF = 0x30000000) ∧
    (decode w = .ok .decNext ↔ w &&& 0xFFFFFFFF = 0x80000000) ∧
    (decode w = .ok .decRst ↔ w &&& 0xFFFFFFFF = 0x90000000) ∧
    (∀ p i, decodeAt p w = some i ↔
      decode w = .ok i ∧ (p = .enc ↔ i ≠ .decNext ∧ i ≠ .decRst))

/-- 95 section 2.9, every row: the legal words, each with the port that accepts it, and the words that spell
nothing on the port or ports the row names. -/
def Obligations.WrittenWordsDecode : Prop :=
  decodeAt .enc 0x10000048 = some (.encFeed 0x48) ∧ decodeAt .enc 0x10000000 = some (.encFeed 0) ∧
  decodeAt .enc 0x101FFFFF = some (.encFeed 0x1FFFFF) ∧ decodeAt .enc 0x20000000 = some .encFinish ∧
  decodeAt .enc 0x30000000 = some .encRst ∧ decodeAt .dec 0x80000000 = some .decNext ∧
  decodeAt .dec 0x90000000 = some .decRst ∧
  [0x10200000, 0x18000048, 0x20000001, 0x80000000].filterMap (decodeAt .enc) = [] ∧
  [0x10000048, 0x90000001].filterMap (decodeAt .dec) = [] ∧
  [0x00000000, 0x40000000, 0x50000000, 0x60000000, 0x70000000, 0xA0000000, 0xB0000000, 0xC0000000,
    0xD0000000, 0xE0000000, 0xF0000000, 0xFFFFFFFF].filterMap (decodeAt .enc) = [] ∧
  [0x00000000, 0x40000000, 0x50000000, 0x60000000, 0x70000000, 0xA0000000, 0xB0000000, 0xC0000000,
    0xD0000000, 0xE0000000, 0xF0000000, 0xFFFFFFFF].filterMap (decodeAt .dec) = []

/-- R68, R166: a word on a port that spells no command of that port is answered `IllegalCommand` with the
word in `RSP1`, and no state of either instance changes. -/
def Obligations.IllegalWordChangesNothing : Prop :=
  ∀ (s : State) (w : Word) (src : List Octet) (rest : List HostEvent),
    ((∀ i, decode w = .ok i → i = .decNext ∨ i = .decRst) → s.pending = .encCommand w :: rest →
      step s = .next { s with
        pending := rest, encRsp := s.encRsp ++ [illegalCommand w] }) ∧
    ((∀ i, decode w = .ok i → i ≠ .decNext ∧ i ≠ .decRst) → s.pending = .decCommand w src :: rest →
      step s = .next { s with
        pending := rest, srcIn := src, decRsp := s.decRsp ++ [illegalCommand w] }) ∧
    rsp0 (illegalCommand w) = 0x60000000 ∧ rsp1 (illegalCommand w) = w

/-- The model's own event list (log 1, log 3): when the host's next event is a word that is a command of the
port it comes on, the step is `exec` of that command, with the event taken off the list and, on `DEC`'s port,
its source put on the source input. -/
def Obligations.StepRunsTheDecodedCommand : Prop :=
  ∀ (s : State) (w : Word) (i : Instr) (src : List Octet) (rest : List HostEvent),
    decode w = .ok i →
    (portOf i = .enc → s.pending = .encCommand w :: rest → step s = exec i { s with pending := rest }) ∧
    (portOf i = .dec → s.pending = .decCommand w src :: rest →
      step s = exec i { s with pending := rest, srcIn := src })

/-- 60_exceptions section 3 (R175) in the model's event list (log 1): with no event pending a step loses
nothing. -/
def Obligations.IdleStepLosesNothing : Prop :=
  ∀ s : State, s.pending = [] → step s = .next s

/-- 30_encoding sections 2 and 3 (R64, R70), for every configuration: a command that goes to a next state gives
exactly one response, on its own port, and one of those the command can give. The premise rules out states no run
reaches, in which `DEC.ERR` holds what no error writes (10_state R20). -/
def Obligations.EachCommandGivesOneListedResponse : Prop :=
  ∀ (c : Config) (i : Instr) (s t : State), Inv s → execIn c i s = .next t →
    ∃ r, mayAnswer i r ∧
      (portOf i = .enc → t.encRsp = s.encRsp ++ [r] ∧ t.decRsp = s.decRsp) ∧
      (portOf i = .dec → t.decRsp = s.decRsp ++ [r] ∧ t.encRsp = s.encRsp)

/-- 30_encoding section 3 (R69) with 60_exceptions section 1 (R160): the numbers of the statuses and kinds, the
places of the fields in the two response words, the words of the three `OK` responses, and that the words
determine the response. -/
def Obligations.ResponseWordsHoldEveryField : Prop :=
  (statusCode .ok = 0 ∧ statusCode .unsupportedCharacter = 1 ∧ statusCode .invalidSeptet = 2 ∧
    statusCode .danglingEscape = 3 ∧ statusCode .underlyingIOFailure = 4 ∧ statusCode .encoderClosed = 5 ∧
    statusCode .illegalCommand = 6) ∧
  (kindCode .none = 0 ∧ kindCode .char = 1 ∧ kindCode .fin = 2) ∧
  (∀ r : Response,
    (rsp0 r).extractLsb' 28 4 = statusCode r.status ∧ (rsp0 r).extractLsb' 24 4 = kindCode r.kind ∧
    (rsp0 r).extractLsb' 21 3 = 0 ∧ (rsp0 r).extractLsb' 0 21 = r.val ∧ rsp1 r = r.aux) ∧
  (rsp0 okNone = 0 ∧ rsp1 okNone = 0 ∧ rsp0 okEnd = 0x02000000 ∧ rsp1 okEnd = 0 ∧
    ∀ cp : Codepoint, rsp0 (okChar cp) = 0x01000000 + cp.setWidth 32 ∧ rsp1 (okChar cp) = 0) ∧
  ∀ r r' : Response, rsp0 r = rsp0 r' → rsp1 r = rsp1 r' → r = r'

/-! ### Reset -/

/-- R191: the reset state, and every state a hardware reset leads to; the source is the one bound (the model
holds it at its source input: log 3), the empty list when none is. -/
def Obligations.ResetLeavesTheRuledValues : Prop :=
  State.reset.enc.acc = 0 ∧ State.reset.enc.k = 0 ∧ State.reset.enc.st = .opened ∧
  State.reset.enc.sink = [] ∧ State.reset.dec.acc = 0 ∧ State.reset.dec.r = 0 ∧
  State.reset.dec.pos = 0 ∧ State.reset.dec.st = .run ∧
  State.reset.dec.err.kind = .ok ∧ State.reset.dec.err.val = 0 ∧ State.reset.dec.err.aux = 0 ∧
  State.reset.dec.rp = 0 ∧ State.reset.dec.src = [] ∧
  ∀ s : State, (hardwareReset s).enc.acc = 0 ∧ (hardwareReset s).enc.k = 0 ∧
    (hardwareReset s).enc.st = .opened ∧ (hardwareReset s).enc.sink = [] ∧ (hardwareReset s).dec.acc = 0 ∧
    (hardwareReset s).dec.r = 0 ∧ (hardwareReset s).dec.pos = 0 ∧ (hardwareReset s).dec.st = .run ∧
    (hardwareReset s).dec.err = ⟨.ok, 0, 0⟩ ∧ (hardwareReset s).dec.rp = 0 ∧
    (hardwareReset s).dec.src = s.srcIn

/-- 70_reset section 1 (R190): a hardware reset has exactly the effect of `ENC.RST` followed by `DEC.RST` on
the bound source, on both instances; that it gives no response is the model's reading (log 2). -/
def Obligations.HardwareResetIsBothResets : Prop :=
  ∀ (s : State) (src : List Octet) (rest : List HostEvent), s.pending = .hardReset src :: rest →
    ∃ t u v, step s = .next t ∧ exec .encRst { s with pending := rest, srcIn := src } = .next u ∧
      exec .decRst u = .next v ∧ t.enc = v.enc ∧ t.dec = v.dec ∧ t.srcIn = src ∧ t.pending = rest ∧
      t.encRsp = s.encRsp ∧ t.decRsp = s.decRsp ∧
      t.enc.acc = 0 ∧ t.enc.k = 0 ∧ t.enc.st = .opened ∧ t.enc.sink = [] ∧ t.dec.acc = 0 ∧ t.dec.r = 0 ∧
      t.dec.pos = 0 ∧ t.dec.st = .run ∧ t.dec.err = ⟨.ok, 0, 0⟩ ∧ t.dec.rp = 0 ∧ t.dec.src = src

/-! ### The encoder -/

/-- 42_encoder section 1 (R120 with 41_bit_engine R100), the result and the frame of a basic character: with
the encoder `OPEN`, `exec` answers the state in which the one septet is packed above the held bits; nothing else
of the machine changes, but for the model's transfer number (log 4). -/
def Obligations.FeedPacksABasicCharacter : Prop :=
  ∀ (s : State) (cp : Codepoint) (x : Septet),
    s.enc.st = .opened → s.enc.acc.toNat < 2 ^ s.enc.k.toNat →
    lutEnc Config.gsm7Core.alphabet cp = some (false, x) →
    exec (.encFeed cp) s =
      .next { s with enc := afterPacking s.enc [x], encRsp := s.encRsp ++ [okNone] }

/-- 42_encoder section 1 (R120): the same for an extended character: the escape septet first, then the
extension septet, in one command. -/
def Obligations.FeedPacksAnExtendedCharacter : Prop :=
  ∀ (s : State) (cp : Codepoint) (x : Septet),
    s.enc.st = .opened → s.enc.acc.toNat < 2 ^ s.enc.k.toNat →
    lutEnc Config.gsm7Core.alphabet cp = some (true, x) →
    exec (.encFeed cp) s =
      .next { s with enc := afterPacking s.enc [0x1B, x], encRsp := s.encRsp ++ [okNone] }

/-- 42_encoder section 1 (R120) with 20_memory section 5 (R51), for every configuration: a character of the
tables whose completed octets the platform accepts is packed, whatever becomes of the transfers after them. -/
def Obligations.FeedPacksInEveryBlock : Prop :=
  ∀ (c : Config) (s : State) (cp : Codepoint) (form : List Septet),
    s.enc.st = .opened → s.enc.acc.toNat < 2 ^ s.enc.k.toNat →
    septetForm c.alphabet cp = some form →
    accepts c.ioFail.sink s.enc.writes (octetCount s.enc.k form.length) →
    execIn c (.encFeed cp) s =
      .next { s with enc := afterPacking s.enc form, encRsp := s.encRsp ++ [okNone] }

/-- R161: a codepoint in neither table is answered `UnsupportedCharacter` carrying it, and changes no state;
with the rule's example. -/
def Obligations.UnsupportedCharacterChangesNoState : Prop :=
  (∀ (s : State) (cp : Codepoint), s.enc.st = .opened →
    (∀ x, lutDecB Config.gsm7Core.alphabet x ≠ some cp ∧ lutDecX Config.gsm7Core.alphabet x ≠ some cp) →
    exec (.encFeed cp) s = .next { s with encRsp := s.encRsp ++ [unsupportedCharacter cp] }) ∧
  (∀ cp : Codepoint, rsp0 (unsupportedCharacter cp) = 0x10000000 + cp.setWidth 32 ∧
    rsp1 (unsupportedCharacter cp) = 0) ∧
  exec (.encFeed 0x4E2D) State.reset =
    .next { State.reset with encRsp := [unsupportedCharacter 0x4E2D] }

/-- R165: `ENC.FEED` and `ENC.FINISH` on a closed encoder are answered `EncoderClosed`, change no state and
write no octet, whatever the character; with the rule's examples. -/
def Obligations.ClosedEncoderRefuses : Prop :=
  ∀ s : State, s.enc.st = .closed →
    (∀ cp, exec (.encFeed cp) s = .next { s with encRsp := s.encRsp ++ [encoderClosed cp] }) ∧
    exec .encFinish s = .next { s with encRsp := s.encRsp ++ [encoderClosed 0] } ∧
    rsp0 (encoderClosed 0) = 0x50000000 ∧ rsp0 (encoderClosed 0x61) = 0x50000061 ∧
    ∀ cp, rsp1 (encoderClosed cp) = 0

/-- 42_encoder section 1 (R121 with 41_bit_engine R101), the result and the frame of `ENC.FINISH`: with no
bit held nothing is written; with `K` bits held one octet is, the held bits below and `8 - K` padding bits above,
1 in this hardware (92 D5, log 7); the encoder is then closed and holds nothing. First in this hardware, then for
every configuration, where only a transfer that is made must be accepted. -/
def Obligations.FinishFlushesAndCloses : Prop :=
  (∀ s : State, s.enc.st = .opened → s.enc.acc.toNat < 2 ^ s.enc.k.toNat →
    exec .encFinish s = .next { s with
      encRsp := s.encRsp ++ [okNone]
      enc := { acc := 0, k := 0, st := .closed
               sink := s.enc.sink ++ (if s.enc.k = 0 then [] else
                 [BitVec.ofNat 8 (s.enc.acc.toNat + (256 - 2 ^ s.enc.k.toNat))])
               writes := if s.enc.k = 0 then s.enc.writes else s.enc.writes + 1 } }) ∧
  ∀ (c : Config) (s : State), s.enc.st = .opened → s.enc.acc.toNat < 2 ^ s.enc.k.toNat →
    (s.enc.k ≠ 0 → failureAt c.ioFail.sink s.enc.writes = none) →
    execIn c .encFinish s = .next { s with
      encRsp := s.encRsp ++ [okNone]
      enc := { acc := 0, k := 0, st := .closed
               sink := s.enc.sink ++ (if s.enc.k = 0 then [] else
                 [BitVec.ofNat 8 (s.enc.acc.toNat + c.padFill.toNat * (256 - 2 ^ s.enc.k.toNat))])
               writes := if s.enc.k = 0 then s.enc.writes else s.enc.writes + 1 } }

/-- 41_bit_engine section 1 (R101) for either value of `PAD_FILL`: the flushed octet is the held bits plus the
padding bits, each equal to `PAD_FILL`. -/
def Obligations.FlushPadsWithPadFill : Prop :=
  ∀ (c : Config) (e : Enc), e.k ≠ 0 → e.acc.toNat < 2 ^ e.k.toNat →
    failureAt c.ioFail.sink e.writes = none →
    ∃ o : Octet, packFlush c e =
        (none, { e with acc := 0, k := 0, sink := e.sink ++ [o], writes := e.writes + 1 }) ∧
      o.toNat = e.acc.toNat + c.padFill.toNat * (256 - 2 ^ e.k.toNat) ∧
      (∀ j, j < e.k.toNat → o.getLsbD j = e.acc.getLsbD j) ∧
      ∀ j, e.k.toNat ≤ j → j < 8 → o.getLsbD j = decide (c.padFill = 1)

/-- R122: `ENC.RST`, word 0x30000000, is accepted in every state and makes the encoder fresh with an empty
sink; `DEC` and the rest of the machine are as before; no other command leaves `CLOSED`. -/
def Obligations.EncoderResetIsFresh : Prop :=
  (∀ s : State, exec .encRst s = .next { s with
    encRsp := s.encRsp ++ [okNone]
    enc := { s.enc with acc := 0, k := 0, st := .opened, sink := [] } }) ∧
  (∀ (i : Instr) (s t : State), s.enc.st = .closed → exec i s = .next t → t.enc.st = .opened → i = .encRst) ∧
  ∀ w : Word, decode w = .ok .encRst ↔ w &&& 0xFFFFFFFF = 0x30000000

/-- 20_memory section 5 (R51) and 93 U7 for `ENC.FEED`, for every configuration: the transfer after `q` accepted
ones fails with `w`: the encoder closes, answers `UnderlyingIOFailure(w)`, and the octets written before stay. What
`ENC.ACC` and `ENC.K` then hold is a free value (log 5): the statement says nothing of it. -/
def Obligations.SinkFailureClosesTheEncoder : Prop :=
  ∀ (c : Config) (s : State) (cp : Codepoint) (form : List Septet) (q : Nat) (w : Word),
    s.enc.st = .opened → s.enc.acc.toNat < 2 ^ s.enc.k.toNat →
    septetForm c.alphabet cp = some form →
    q < octetCount s.enc.k form.length → failsAfter c.ioFail.sink s.enc.writes q w →
    ∃ a k, execIn c (.encFeed cp) s = .next { s with
      encRsp := s.encRsp ++ [underlyingIOFailure w]
      enc := { acc := a, k := k, st := .closed
               sink := s.enc.sink ++ (completedOctets s.enc form).take q
               writes := s.enc.writes + q + 1 } }

/-- 20_memory section 5 (R51) and 93 U7 for `ENC.FINISH`, for every configuration: a failed flush writes nothing
and closes the encoder (log 5). -/
def Obligations.SinkFailureAtFinish : Prop :=
  ∀ (c : Config) (s : State) (w : Word), s.enc.st = .opened → s.enc.k ≠ 0 →
    failureAt c.ioFail.sink s.enc.writes = some w →
    ∃ a k, execIn c .encFinish s = .next { s with
      encRsp := s.encRsp ++ [underlyingIOFailure w]
      enc := { acc := a, k := k, st := .closed, sink := s.enc.sink, writes := s.enc.writes + 1 } }

/-- R123, for every configuration: the rows of the encoder's table of states and transitions, in the order of
the rule, each with the state and the response it goes to; a write fails where one of the octets the command
completes is refused. The last row's event list is the model's (log 1). -/
def Obligations.EncoderStatesFollowTheTable : Prop :=
  ∀ (c : Config) (s : State) (cp : Codepoint) (form : List Septet), encInv s.enc →
    (s.enc.st = .opened → septetForm c.alphabet cp = some form →
      accepts c.ioFail.sink s.enc.writes (octetCount s.enc.k form.length) →
      ∃ t, execIn c (.encFeed cp) s = .next t ∧ t.enc.st = .opened ∧ t.encRsp = s.encRsp ++ [okNone]) ∧
    (s.enc.st = .opened → septetForm c.alphabet cp = none →
      ∃ t, execIn c (.encFeed cp) s = .next t ∧ t.enc.st = .opened ∧
        t.encRsp = s.encRsp ++ [unsupportedCharacter cp]) ∧
    (s.enc.st = .opened → (s.enc.k ≠ 0 → failureAt c.ioFail.sink s.enc.writes = none) →
      ∃ t, execIn c .encFinish s = .next t ∧ t.enc.st = .closed ∧ t.encRsp = s.encRsp ++ [okNone]) ∧
    (∀ q w, s.enc.st = .opened → septetForm c.alphabet cp = some form →
      q < octetCount s.enc.k form.length → failsAfter c.ioFail.sink s.enc.writes q w →
      ∃ t, execIn c (.encFeed cp) s = .next t ∧ t.enc.st = .closed ∧
        t.encRsp = s.encRsp ++ [underlyingIOFailure w]) ∧
    (∀ w, s.enc.st = .opened → s.enc.k ≠ 0 → failureAt c.ioFail.sink s.enc.writes = some w →
      ∃ t, execIn c .encFinish s = .next t ∧ t.enc.st = .closed ∧
        t.encRsp = s.encRsp ++ [underlyingIOFailure w]) ∧
    (s.enc.st = .closed → ∃ t, execIn c (.encFeed cp) s = .next t ∧ t.enc.st = .closed ∧
      t.encRsp = s.encRsp ++ [encoderClosed cp]) ∧
    (s.enc.st = .closed → ∃ t, execIn c .encFinish s = .next t ∧ t.enc.st = .closed ∧
      t.encRsp = s.encRsp ++ [encoderClosed 0]) ∧
    (∃ t, execIn c .encRst s = .next t ∧ t.enc.st = .opened ∧ t.encRsp = s.encRsp ++ [okNone]) ∧
    (∀ w rest, s.pending = .encCommand w :: rest → decodeAt .enc w = none →
      ∃ t, stepIn c s = .next t ∧ t.enc.st = s.enc.st ∧ t.encRsp = s.encRsp ++ [illegalCommand w])

/-- R124, for every configuration: along any run, until `ENC.RST` (or a hardware reset), the octets in the sink
are a prefix of what the sink holds later. -/
def Obligations.SinkOnlyGrowsUntilReset : Prop :=
  ∀ (c : Config) (n : Nat) (s t : State), (∀ ev ∈ s.pending.take n, resetsEncoder ev = false) →
    runIn c n s = .next t → s.enc.sink <+: t.enc.sink

/-- 42_encoder section 2 (R125), for every configuration whose platform never fails: after any characters fed
to a fresh encoder, refused ones not counting, sink and held bits are together the bits of the septet stream,
`7 * n` of them. -/
def Obligations.SinkAndHeldBitsArePackedText : Prop :=
  ∀ (c : Config) (text : List Codepoint) (e : Enc), c.ioFail = .never → isFreshEnc e →
    octetBits (feedEach c text e).sink ++
        lowBits (feedEach c text e).k.toNat (feedEach c text e).acc =
      septetBits (textSeptets c.alphabet text) ∧
    (feedEach c text e).sink.length = 7 * (textSeptets c.alphabet text).length / 8 ∧
    (feedEach c text e).k.toNat = 7 * (textSeptets c.alphabet text).length % 8 ∧
    (feedEach c text e).st = .opened

/-- 20_memory section 3 (R44, R45, R46) with 42_encoder section 2 (R125), for every configuration whose platform
never fails: the finished sink has `ceil(7 * n / 8)` octets, septet `i` stands at stream bits `7 * i` to
`7 * i + 6`, and every bit above is `PAD_FILL`. -/
def Obligations.FinishedSinkHasTheLayout : Prop :=
  ∀ (c : Config) (text : List Codepoint) (e f : Enc) (r : Response), c.ioFail = .never → isFreshEnc e →
    encFinish c (feedEach c text e) = (f, r) →
    r = okNone ∧ f.st = .closed ∧ f.sink.length = (7 * (textSeptets c.alphabet text).length + 7) / 8 ∧
    (∀ i b, b < 7 → i < (textSeptets c.alphabet text).length →
      streamBit f.sink (7 * i + b) = ((textSeptets c.alphabet text)[i]?).map (fun x => x.getLsbD b)) ∧
    ∀ j, 7 * (textSeptets c.alphabet text).length ≤ j → j < 8 * f.sink.length →
      streamBit f.sink j = some (decide (c.padFill = 1))

/-! ### The engine -/

/-- 41_bit_engine section 3 (R105), for either `PAD_FILL`, on a platform that never fails: what is packed and
flushed unpacks to the same septets, with one more septet of seven padding bits when the count is 7 mod 8; the
bits left at the end are padding bits. -/
def Obligations.UnpackingInvertsPacking : Prop :=
  ∀ (c : Config) (l : List Septet) (e : Enc) (d : Dec) (n : Nat),
    c.ioFail = .never → isFreshEnc e →
    isFreshDec (packFlush c (packAll c l e).2).2.sink d → l.length + 1 < n →
    (unpackAll c n d).1 = l ++ (if l.length % 8 = 7 then [padSeptet c] else []) ∧
    (unpackGet c (unpackAll c n d).2).1 = .exhausted ∧
    lowBits (unpackAll c n d).2.r.toNat (unpackAll c n d).2.acc =
      List.replicate (unpackAll c n d).2.r.toNat (decide (c.padFill = 1))

/-- 41_bit_engine section 3 (R107), one direction of the block view, for every configuration: eight septets packed
from an octet boundary, with the platform accepting, append these seven octets and leave nothing held. -/
def Obligations.EightSeptetsGiveSevenOctets : Prop :=
  ∀ (c : Config) (s0 s1 s2 s3 s4 s5 s6 s7 : Septet) (e : Enc), e.acc = 0 → e.k = 0 →
    accepts c.ioFail.sink e.writes 7 →
    ∃ o0 o1 o2 o3 o4 o5 o6 : Octet,
      packAll c [s0, s1, s2, s3, s4, s5, s6, s7] e =
        (none, { e with sink := e.sink ++ [o0, o1, o2, o3, o4, o5, o6], writes := e.writes + 7 }) ∧
      o0.toNat = s0.toNat + s1.toNat % 2 * 128 ∧
      o1.toNat = s1.toNat / 2 + s2.toNat % 4 * 64 ∧
      o2.toNat = s2.toNat / 4 + s3.toNat % 8 * 32 ∧
      o3.toNat = s3.toNat / 8 + s4.toNat % 16 * 16 ∧
      o4.toNat = s4.toNat / 16 + s5.toNat % 32 * 8 ∧
      o5.toNat = s5.toNat / 32 + s6.toNat % 64 * 4 ∧
      o6.toNat = s6.toNat / 64 + s7.toNat * 2

/-! ### The Alphabet Table -/

/-- R83: a block is built only on a table that meets (a) to (f); the default tables meet them, with 127 and 10
entries. -/
def Obligations.BuildRefusesIllFormedTables : Prop :=
  (Config.build Config.gsm7Core = some Config.gsm7Core ∧
    Config.gsm7Core.alphabet.basic.length = 127 ∧ Config.gsm7Core.alphabet.ext.length = 10) ∧
  ∀ c d : Config, Config.build c = some d → d = c ∧
    lutDecB c.alphabet 0x1B = none ∧
    (∀ x y cp, lutDecB c.alphabet x = some cp → lutDecB c.alphabet y = some cp → x = y) ∧
    (∀ x y cp, lutDecX c.alphabet x = some cp → lutDecX c.alphabet y = some cp → x = y) ∧
    (∀ x y cp, lutDecB c.alphabet x = some cp → lutDecX c.alphabet y ≠ some cp) ∧
    c.alphabet.ext.length < 128 ∧
    lutDecB c.alphabet 0x54 = some 0x54 ∧ lutDecB c.alphabet 0x74 = some 0x74

/-- 40_alphabet section 2 (R86, R87), for every well-formed table: the lookups are inverse to each other, and
no character is encoded as a bare escape. -/
def Obligations.LookupsAreInverse : Prop :=
  ∀ a : Alphabet, a.wellFormed = true → ∀ (x : Septet) (cp : Codepoint),
    (lutDecB a x = some cp ↔ lutEnc a cp = some (false, x)) ∧
    (lutDecX a x = some cp ↔ lutEnc a cp = some (true, x)) ∧
    (lutEnc a cp = none ↔ ∀ y, lutDecB a y ≠ some cp ∧ lutDecX a y ≠ some cp) ∧
    lutEnc a cp ≠ some (false, 0x1B)

/-- 40_alphabet section 1 (the default tables, from general knowledge: log 6): they are well formed, the basic
table's only hole is the escape, and ten extension septets are assigned. -/
def Obligations.DefaultTablesAreWellFormed : Prop :=
  Config.build Config.gsm7Core = some Config.gsm7Core ∧
  (∀ x : Septet, lutDecB Config.gsm7Core.alphabet x = none ↔ x = 0x1B) ∧
  (∀ x : Septet, (lutDecX Config.gsm7Core.alphabet x).isSome ↔
    x ∈ [0x0A, 0x14, 0x28, 0x29, 0x2F, 0x3C, 0x3D, 0x3E, 0x40, 0x65])

/-! ### The decoder -/

/-- 43_decoder section 1 (R140 with 41_bit_engine R102), the result and the frame of `DEC.NEXT` on a basic
character. -/
def Obligations.NextAnswersABasicCharacter : Prop :=
  ∀ (s : State) (x : Septet) (cp : Codepoint) (d1 : Dec),
    s.dec.st = .run → s.dec.acc.toNat < 2 ^ s.dec.r.toNat → s.dec.pos.toNat + 1 < 2 ^ 32 →
    takesSeptet Config.gsm7Core s.dec x d1 → x ≠ 0x1B → lutDecB Config.gsm7Core.alphabet x = some cp →
    exec .decNext s = .next { s with dec := d1, decRsp := s.decRsp ++ [okChar cp] }

/-- 43_decoder section 1 (R140): the same for an extended character: the escape and the septet after it are
consumed by one command. -/
def Obligations.NextAnswersAnExtendedCharacter : Prop :=
  ∀ (s : State) (x : Septet) (cp : Codepoint) (d1 d2 : Dec),
    s.dec.st = .run → s.dec.acc.toNat < 2 ^ s.dec.r.toNat → s.dec.pos.toNat + 2 < 2 ^ 32 →
    takesSeptet Config.gsm7Core s.dec 0x1B d1 → takesSeptet Config.gsm7Core d1 x d2 →
    lutDecX Config.gsm7Core.alphabet x = some cp →
    exec .decNext s = .next { s with dec := d2, decRsp := s.decRsp ++ [okChar cp] }

/-- 43_decoder sections 1 and 2 (R140, R143, R145): where a character would start, with fewer than 7 bits held
and the source used up, `DEC.NEXT` answers `OK/End` and the decoder is `ENDED`; the held bits are padding. -/
def Obligations.NextEndsAtACharacterBoundary : Prop :=
  ∀ (s : State) (d1 : Dec), s.dec.st = .run → runsOut Config.gsm7Core s.dec d1 →
    exec .decNext s =
      .next { s with dec := { d1 with st := .ended }, decRsp := s.decRsp ++ [okEnd] }

/-- 43_decoder section 1 (R140) with 20_memory section 5 (R51), for every configuration, whatever becomes of the
transfers after those made: a basic character, an extended character, the end at a character boundary, and the end
right after an escape. -/
def Obligations.NextAnswersInEveryBlock : Prop :=
  ∀ (c : Config) (s : State) (x : Septet) (cp : Codepoint) (d1 d2 : Dec), c.posW ≤ 32 →
    s.dec.st = .run → s.dec.acc.toNat < 2 ^ s.dec.r.toNat →
    (s.dec.pos.toNat + 1 < 2 ^ c.posW → takesSeptet c s.dec x d1 → x ≠ 0x1B →
      lutDecB c.alphabet x = some cp →
      execIn c .decNext s = .next { s with dec := d1, decRsp := s.decRsp ++ [okChar cp] }) ∧
    (s.dec.pos.toNat + 2 < 2 ^ c.posW → takesSeptet c s.dec 0x1B d1 → takesSeptet c d1 x d2 →
      lutDecX c.alphabet x = some cp →
      execIn c .decNext s = .next { s with dec := d2, decRsp := s.decRsp ++ [okChar cp] }) ∧
    (runsOut c s.dec d1 → execIn c .decNext s = .next { s with
      dec := { d1 with st := .ended }, decRsp := s.decRsp ++ [okEnd] }) ∧
    (s.dec.pos.toNat + 1 < 2 ^ c.posW → takesSeptet c s.dec 0x1B d1 → runsOut c d1 d2 →
      execIn c .decNext s = .next { s with
        dec := { d2 with st := .failed, err := ⟨.danglingEscape, 0x1B, s.dec.pos⟩ }
        decRsp := s.decRsp ++ [raise .danglingEscape 0x1B s.dec.pos] })

/-- R162, for every table: a first septet other than the escape that `BASIC` does not define, or a septet
right after an escape that `EXT` does not define, is `InvalidSeptet` at its own position; the septet is
consumed, the decoder is `FAILED` and keeps the error. With the default table only the second cause can
arise; with the rule's example. -/
def Obligations.InvalidSeptetFailsTheDecoder : Prop :=
  (∀ (c : Config) (d d1 : Dec) (x : Septet), d.st = .run → d.acc.toNat < 2 ^ d.r.toNat →
    d.pos.toNat + 1 < 2 ^ c.posW → takesSeptet c d x d1 → x ≠ 0x1B → lutDecB c.alphabet x = none →
    decNext c d = .ok ({ d1 with st := .failed, err := ⟨.invalidSeptet, x.setWidth 21, d.pos⟩ },
      ⟨.invalidSeptet, .none, x.setWidth 21, d.pos⟩)) ∧
  (∀ (c : Config) (d d1 d2 : Dec) (x : Septet), d.st = .run → d.acc.toNat < 2 ^ d.r.toNat →
    d.pos.toNat + 2 < 2 ^ c.posW → c.posW ≤ 32 → takesSeptet c d 0x1B d1 → takesSeptet c d1 x d2 →
    lutDecX c.alphabet x = none →
    decNext c d = .ok ({ d2 with st := .failed, err := ⟨.invalidSeptet, x.setWidth 21, d.pos + 1⟩ },
      ⟨.invalidSeptet, .none, x.setWidth 21, d.pos + 1⟩)) ∧
  (∀ x : Septet, x ≠ 0x1B → lutDecB Config.gsm7Core.alphabet x ≠ none) ∧
  ∃ t r, exec .decNext { State.reset with dec := { Dec.reset with src := [0x1B, 0x00] } } = .next t ∧
    t.decRsp = [r] ∧ rsp0 r = 0x20000000 ∧ rsp1 r = 0x00000001

/-- 60_exceptions section 1 (R162) in this hardware: the frame and the answer of `DEC.NEXT` on an extension
septet that is not defined. -/
def Obligations.NextRefusesAnUndefinedExtension : Prop :=
  ∀ (s : State) (x : Septet) (d1 d2 : Dec),
    s.dec.st = .run → s.dec.acc.toNat < 2 ^ s.dec.r.toNat → s.dec.pos.toNat + 2 < 2 ^ 32 →
    takesSeptet Config.gsm7Core s.dec 0x1B d1 → takesSeptet Config.gsm7Core d1 x d2 →
    lutDecX Config.gsm7Core.alphabet x = none →
    exec .decNext s = .next { s with
      dec := { d2 with st := .failed, err := ⟨.invalidSeptet, x.setWidth 21, s.dec.pos + 1⟩ }
      decRsp := s.decRsp ++ [raise .invalidSeptet (x.setWidth 21) (s.dec.pos + 1)] }

/-- R163: the escape and then a source used up with fewer than 7 bits held is `DanglingEscape`, carrying 0x1B
and the escape's position; the decoder is `FAILED` and keeps it; with the rule's example. -/
def Obligations.DanglingEscapeFailsTheDecoder : Prop :=
  (∀ (s : State) (d1 d2 : Dec),
    s.dec.st = .run → s.dec.acc.toNat < 2 ^ s.dec.r.toNat → s.dec.pos.toNat + 1 < 2 ^ 32 →
    takesSeptet Config.gsm7Core s.dec 0x1B d1 → runsOut Config.gsm7Core d1 d2 →
    exec .decNext s = .next { s with
      dec := { d2 with st := .failed, err := ⟨.danglingEscape, 0x1B, s.dec.pos⟩ }
      decRsp := s.decRsp ++ [raise .danglingEscape 0x1B s.dec.pos] }) ∧
  ∃ t r, exec .decNext { State.reset with dec := { Dec.reset with src := [0x1B] } } = .next t ∧
    t.decRsp = [r] ∧ rsp0 r = 0x3000001B ∧ rsp1 r = 0x00000000

/-- 20_memory section 5 (R51) for `DEC.NEXT`, for every configuration: a failed read, at a character's start or
right after an escape, fails the decoder with `UnderlyingIOFailure(w)`; what was read before stays consumed. -/
def Obligations.SourceFailureFailsTheDecoder : Prop :=
  ∀ (c : Config) (s : State) (w : Word), s.dec.st = .run →
    (∀ d1, readFails c s.dec w d1 → execIn c .decNext s = .next { s with
      dec := { d1 with st := .failed, err := ⟨.underlyingIOFailure, 0, w⟩ }
      decRsp := s.decRsp ++ [underlyingIOFailure w] }) ∧
    (∀ d1 d2, s.dec.acc.toNat < 2 ^ s.dec.r.toNat → s.dec.pos.toNat + 1 < 2 ^ c.posW →
      takesSeptet c s.dec 0x1B d1 → readFails c d1 w d2 → execIn c .decNext s = .next { s with
        dec := { d2 with st := .failed, err := ⟨.underlyingIOFailure, 0, w⟩ }
        decRsp := s.decRsp ++ [underlyingIOFailure w] })

/-- 43_decoder sections 1 and 2 (R140 i, R143): after the end or after an error every `DEC.NEXT` repeats
itself and nothing but the response is added; nothing is read. -/
def Obligations.EndAndErrorAreSticky : Prop :=
  ∀ s : State,
    (s.dec.st = .ended → exec .decNext s = .next { s with decRsp := s.decRsp ++ [okEnd] }) ∧
    (s.dec.st = .failed → exec .decNext s = .next { s with
      decRsp := s.decRsp ++ [raise s.dec.err.kind s.dec.err.val s.dec.err.aux] })

/-- R141: `DEC.RST src`, word 0x90000000, is accepted in every state and makes the decoder fresh on the source
beside the command; `ENC` and the rest of the machine are as before; no other command leaves `ENDED` or `FAILED`;
with the rule's example. Where the source stands beside the command is the model's (log 3). -/
def Obligations.DecoderResetBindsTheSource : Prop :=
  (∀ s : State, exec .decRst s = .next { s with
    decRsp := s.decRsp ++ [okNone]
    dec := { s.dec with
      acc := 0, r := 0, pos := 0, st := .run, err := ⟨.ok, 0, 0⟩, src := s.srcIn, rp := 0 } }) ∧
  (∀ (i : Instr) (s t : State), s.dec.st ≠ .run → exec i s = .next t → t.dec.st = .run → i = .decRst) ∧
  (∀ w : Word, decode w = .ok .decRst ↔ w &&& 0xFFFFFFFF = 0x90000000) ∧
  ∀ s : State, s.dec.st = .failed → s.srcIn = [0x80] →
    ∃ t u, exec .decRst s = .next t ∧ t.dec.st = .run ∧ t.dec.rp = 0 ∧
      exec .decNext t = .next u ∧ u.decRsp = s.decRsp ++ [okNone, okChar 0x40]

/-- 93 U9 with 10_state section 3 (R18): a septet that would take the count beyond `2^32 - 1` is refused by
name, not counted with a wrap, be it a character's first septet or the one after an escape (log 8). -/
def Obligations.PositionOverflowIsRefused : Prop :=
  ∀ (s : State) (x : Septet) (d1 d2 : Dec), s.dec.st = .run → s.dec.acc.toNat < 2 ^ s.dec.r.toNat →
    (s.dec.pos.toNat = 2 ^ 32 - 1 → takesSeptet Config.gsm7Core s.dec x d1 →
      exec .decNext s = .refused .positionOverflow) ∧
    (s.dec.pos.toNat = 2 ^ 32 - 2 → takesSeptet Config.gsm7Core s.dec 0x1B d1 →
      takesSeptet Config.gsm7Core d1 x d2 → exec .decNext s = .refused .positionOverflow)

/-- 43_decoder section 2 (R142): a `DEC.NEXT` that answers a character consumed one septet, or two of which
the first is the escape, and nothing else. -/
def Obligations.OneCharacterPerPull : Prop :=
  ∀ (s t : State) (cp : Codepoint), s.dec.st = .run → s.dec.acc.toNat < 2 ^ s.dec.r.toNat →
    exec .decNext s = .next t → t.decRsp = s.decRsp ++ [okChar cp] →
    (∃ x, x ≠ 0x1B ∧ takesSeptet Config.gsm7Core s.dec x t.dec ∧ lutDecB Config.gsm7Core.alphabet x = some cp) ∨
    ∃ x d1, takesSeptet Config.gsm7Core s.dec 0x1B d1 ∧ takesSeptet Config.gsm7Core d1 x t.dec ∧
      lutDecX Config.gsm7Core.alphabet x = some cp

/-- 43_decoder section 2 (R145), under the invariant of 10_state R21: when the decoder ends, it has extracted
`floor(8 * L / 7)` septets of its `L` octets and drops the bits that are left. -/
def Obligations.EndDropsOnlyTheRemainder : Prop :=
  ∀ s t : State, Inv s → s.dec.st = .run → exec .decNext s = .next t → t.dec.st = .ended →
    t.dec.pos.toNat = 8 * s.dec.src.length / 7 ∧ t.dec.r.toNat = 8 * s.dec.src.length % 7 ∧
    t.dec.pos = s.dec.pos

/-- 20_memory section 3 (R46) and 41_bit_engine section 3 (R108), for every configuration whose platform never
fails: two sources that differ only in the bits left above the last whole septet decode alike. -/
def Obligations.PaddingBitsAreNeverLookedAt : Prop :=
  ∀ (c : Config) (o : List Octet) (a b : Octet) (d d' : Dec), c.posW ≤ 32 → c.ioFail = .never →
    isFreshDec (o ++ [a]) d → isFreshDec (o ++ [b]) d' →
    (∀ j, j < 8 - 8 * (o.length + 1) % 7 → a.getLsbD j = b.getLsbD j) →
    sameAnswers (decAll c d) (decAll c d')

/-- 30_encoding section 4 (R72), for every configuration and decoder: `DEC.ALL` always stops, after at most one
`DEC.NEXT` for each whole septet of 7 bits left and one more. -/
def Obligations.CollectingAlwaysStops : Prop :=
  ∀ (c : Config) (d : Dec), decAll c d ≠ .outOfFuel

/-- 43_decoder section 2 (R146), for every well-formed configuration whose platform never fails: a text whose
characters are all in the table, encoded, finished and decoded, comes back exactly and ends without error, unless
its septet count is 7 mod 8; then one more response follows, whatever the basic table makes of seven padding
bits. -/
def Obligations.TextsSurviveTheRoundTrip : Prop :=
  ∀ (c : Config) (text : List Codepoint) (e : Enc) (d : Dec), c.wellFormed = true →
    c.ioFail = .never → isFreshEnc e →
    (∀ cp ∈ text, (lutEnc c.alphabet cp).isSome = true) →
    (textSeptets c.alphabet text).length + 1 < 2 ^ c.posW →
    isFreshDec (encFinish c (encStr c text e).1).1.sink d →
    (encStr c text e).2 = okNone ∧
    ((textSeptets c.alphabet text).length % 8 ≠ 7 → ∃ d1, decAll c d = .stopped text okEnd d1) ∧
    ((textSeptets c.alphabet text).length % 8 = 7 → ∀ cp, lutDecB c.alphabet (padSeptet c) = some cp →
      ∃ d1, decAll c d = .stopped (text ++ [cp]) okEnd d1) ∧
    ((textSeptets c.alphabet text).length % 8 = 7 → lutDecB c.alphabet (padSeptet c) = none →
      ∃ d1, decAll c d = .stopped text
        (raise .invalidSeptet ((padSeptet c).setWidth 21)
          (BitVec.ofNat 32 (textSeptets c.alphabet text).length)) d1)

/-! ### The whole machine -/

/-- 10_state sections 2 and 3 (R14, R20, R21): every step keeps the invariant, from every state that meets
it, in this hardware and in a block of any configuration. -/
def Obligations.StepKeepsTheInvariant : Prop :=
  (∀ s t : State, Inv s → step s = .next t → Inv t) ∧
  ∀ (c : Config) (s t : State), c.posW ≤ 32 → Inv s → stepIn c s = .next t → Inv t

/-- 10_state section 5: the reset state meets the invariant. -/
def Obligations.ResetMeetsTheInvariant : Prop := Inv State.reset

/-- 00_scope section 3 (R4): `exec`, `step` and the runs of the machine are those of a block built with the
values this hardware takes; with `IO_FAIL` "never" among them no transfer fails (log 4). -/
def Obligations.ThisHardwareIsTheBaselineBlock : Prop :=
  (∀ (i : Instr) (s : State), exec i s = execIn Config.gsm7Core i s) ∧
  (∀ s : State, step s = stepIn Config.gsm7Core s) ∧
  (∀ (n : Nat) (s : State), Host.Core.run core n s = runIn Config.gsm7Core n s) ∧
  (Config.gsm7Core.padFill = 1 ∧ Config.gsm7Core.alphabet = defaultAlphabet ∧ Config.gsm7Core.posW = 32 ∧
    Config.gsm7Core.nEnc = 1 ∧ Config.gsm7Core.nDec = 1) ∧
  ∀ n : Nat, failureAt Config.gsm7Core.ioFail.sink n = none ∧ failureAt Config.gsm7Core.ioFail.source n = none

/-- 20_memory section 5 (R51): in a block whose `IO_FAIL` is "never" (the baseline) no step answers
`UnderlyingIOFailure` unless it repeats a stored one (log 4). -/
def Obligations.NoFailureWithoutThePlatform : Prop :=
  ∀ (c : Config) (s t : State), c.ioFail = .never → stepIn c s = .next t →
    (∀ r ∈ t.encRsp, r.status = .underlyingIOFailure → r ∈ s.encRsp) ∧
    (s.dec.err.kind ≠ .underlyingIOFailure → t.dec.err.kind ≠ .underlyingIOFailure ∧
      ∀ r ∈ t.decRsp, r.status = .underlyingIOFailure → r ∈ s.decRsp)

/-- R28: `ENC`'s state is read and written only by commands sent to `ENC`, `DEC`'s only by commands sent to
`DEC`: what a command does to its instance and answers depends on that instance (and the source input)
alone, and leaves the other instance and its responses alone. -/
def Obligations.InstancesArePrivate : Prop :=
  ∀ (i : Instr) (s t s' : State), exec i s = .next t →
    (portOf i = .enc → t.dec = s.dec ∧ t.decRsp = s.decRsp ∧
      (s'.enc = s.enc → ∃ t' r, exec i s' = .next t' ∧ t'.enc = t.enc ∧
        t.encRsp = s.encRsp ++ [r] ∧ t'.encRsp = s'.encRsp ++ [r])) ∧
    (portOf i = .dec → t.enc = s.enc ∧ t.encRsp = s.encRsp ∧
      (s'.dec = s.dec → s'.srcIn = s.srcIn → ∃ t' r, exec i s' = .next t' ∧ t'.dec = t.dec ∧
        t.decRsp = s.decRsp ++ [r] ∧ t'.decRsp = s'.decRsp ++ [r]))

/-- 20_memory section 5 (R55): commands of the two instances commute, so the order between the ports does not
matter (log 11). -/
def Obligations.CommandsOfTheTwoPortsCommute : Prop :=
  ∀ (i j : Instr) (s t : State), portOf i = .enc → portOf j = .dec →
    ((∃ u, exec i s = .next u ∧ exec j u = .next t) ↔ (∃ v, exec j s = .next v ∧ exec i v = .next t))

/-- 60_exceptions sections 1 and 2 (R160, R169) with 93 U9: no step stops the machine but the position
overflow (log 8, log 15). -/
def Obligations.OnlyPositionOverflowStops : Prop :=
  ∀ s : State, (∃ t, step s = .next t) ∨
    (step s = .refused .positionOverflow ∧ s.dec.st = .run ∧ 2 ^ 32 - 2 ≤ s.dec.pos.toNat)
end

