-- ==== Sys2Proof/Laws/Alphabet.lean ====
section
/-! SUPPORT. What the table lookups find, for tables that name no septet and no character twice (40_alphabet R84 to R86). -/

namespace Sys2Proof.Laws

open Sys2Proof.Machine

/-- Reading a table at a septet (40_alphabet R84, R85). -/
theorem romAt_iff {rows : List (Septet × Codepoint)} (hn : (rows.map (fun p => p.1)).Nodup) (x : Septet) (cp : Codepoint) :
    romAt rows x = some cp ↔ (x, cp) ∈ rows := by
  induction rows with
  | nil => simp [romAt]
  | cons p rows ih =>
    simp only [List.map_cons, List.nodup_cons] at hn
    obtain ⟨a, b⟩ := p
    by_cases h : a = x
    · subst h
      simp only [romAt, List.find?_cons, BEq.rfl, Option.map_some, Option.some.injEq, List.mem_cons, Prod.mk.injEq, true_and]
      constructor
      · rintro rfl; exact .inl rfl
      · rintro (rfl | h)
        · rfl
        · exact absurd (List.mem_map_of_mem (f := fun p : Septet × Codepoint => p.1) h) hn.1
    · have hb : (a == x) = false := by simpa using h
      have : romAt ((a, b) :: rows) x = romAt rows x := by simp [romAt, hb]
      rw [this, ih hn.2]
      simp [Ne.symm h]

/-- Searching a table for a character (40_alphabet R86). -/
theorem romFind_iff {rows : List (Septet × Codepoint)} (hn : (rows.map (fun p => p.2)).Nodup) (x : Septet) (cp : Codepoint) :
    romFind rows cp = some x ↔ (x, cp) ∈ rows := by
  induction rows with
  | nil => simp [romFind]
  | cons p rows ih =>
    simp only [List.map_cons, List.nodup_cons] at hn
    obtain ⟨a, b⟩ := p
    by_cases h : b = cp
    · subst h
      simp only [romFind, List.find?_cons, BEq.rfl, Option.map_some, Option.some.injEq, List.mem_cons, Prod.mk.injEq, and_true]
      constructor
      · rintro rfl; exact .inl rfl
      · rintro (rfl | h)
        · rfl
        · exact absurd (List.mem_map_of_mem (f := fun p : Septet × Codepoint => p.2) h) hn.1
    · have hb : (b == cp) = false := by simpa using h
      have : romFind ((a, b) :: rows) cp = romFind rows cp := by simp [romFind, hb]
      rw [this, ih hn.2]
      simp [Ne.symm h]

/-- All that `LutEnc` can answer (40_alphabet R86). -/
theorem lutEnc_cases (a : Alphabet) (hb : (a.basic.map (fun p => p.2)).Nodup) (hx : (a.ext.map (fun p => p.2)).Nodup) (cp : Codepoint) :
    (∃ x, lutEnc a cp = some (false, x) ∧ (x, cp) ∈ a.basic) ∨
    (∃ x, lutEnc a cp = some (true, x) ∧ (x, cp) ∈ a.ext ∧ ∀ y, (y, cp) ∉ a.basic) ∨
    (lutEnc a cp = none ∧ (∀ y, (y, cp) ∉ a.basic) ∧ ∀ y, (y, cp) ∉ a.ext) := by
  unfold lutEnc
  cases h : romFind a.basic cp with
  | some x => exact .inl ⟨x, rfl, (romFind_iff hb x cp).mp h⟩
  | none =>
    have nb : ∀ y, (y, cp) ∉ a.basic := fun y hy => by rw [(romFind_iff hb y cp).mpr hy] at h; cases h
    cases h2 : romFind a.ext cp with
    | some x => exact .inr (.inl ⟨x, rfl, (romFind_iff hx x cp).mp h2, nb⟩)
    | none => exact .inr (.inr ⟨rfl, nb, fun y hy => by rw [(romFind_iff hx y cp).mpr hy] at h2; cases h2⟩)

/-- A table with no character twice has one septet for each (40_alphabet R83 b, c). -/
theorem nodup_val {rows : List (Septet × Codepoint)} (hn : (rows.map (fun p => p.2)).Nodup) {x y : Septet} {cp : Codepoint}
   (hx : (x, cp) ∈ rows) (hy : (y, cp) ∈ rows) : x = y := by
  have h1 := (romFind_iff hn x cp).mpr hx
  rw [(romFind_iff hn y cp).mpr hy] at h1; simpa using h1.symm

end Sys2Proof.Laws
end

