-- ==== Sys2Proof/Laws/Bits.lean ====
section
/-! SUPPORT. The bits of the two streams (20_memory R44): lists of bits, least significant first. -/

namespace Sys2Proof.Laws

open Sys2Proof.Machine

@[simp] theorem lowBits_length {w : Nat} (n : Nat) (v : BitVec w) : (lowBits n v).length = n := by
  simp [lowBits]

theorem lowBits_getElem? {w : Nat} (n : Nat) (v : BitVec w) (j : Nat) :
    (lowBits n v)[j]? = if j < n then some (v.getLsbD j) else none := by
  by_cases h : j < n <;> simp [lowBits, h]

@[simp] theorem lowBits_zero {w : Nat} (v : BitVec w) : lowBits 0 v = [] := rfl

theorem lowBits_congr {w w' n : Nat} {v : BitVec w} {v' : BitVec w'}
    (h : ∀ j < n, v.getLsbD j = v'.getLsbD j) : lowBits n v = lowBits n v' := by
  apply List.ext_getElem? ; intro j
  simp only [lowBits_getElem?]
  split <;> simp_all

/-- Cutting the low bits of a value in two. -/
theorem lowBits_add {w : Nat} (m n : Nat) (v : BitVec w) :
    lowBits (m + n) v = lowBits m v ++ lowBits n (v.extractLsb' m n) := by
  apply List.ext_getElem? ; intro j
  simp only [List.getElem?_append, lowBits_length, lowBits_getElem?]
  by_cases h : j < m
  · simp [h, show j < m + n by omega]
  · by_cases h2 : j < m + n
    · simp only [h, h2, show j - m < n by omega, if_true, if_false]
      simp [show j - m < n by omega, show m + (j - m) = j by omega]
    · simp [h, h2, show ¬ (j - m < n) by omega]

/-- A bit at or above a bound on the value is 0. -/
theorem getLsbD_of_toNat_lt {w n j : Nat} {v : BitVec w} (h : v.toNat < 2 ^ n) (hj : n ≤ j) :
    v.getLsbD j = false := by
  rw [BitVec.getLsbD]
  exact Nat.testBit_lt_two_pow (Nat.lt_of_lt_of_le h (Nat.pow_le_pow_right (by decide) hj))

/-- The 14-bit temporary of both engines: held bits below, new bits above (41_bit_engine R106). -/
theorem lowBits_join {w : Nat} (a : BitVec 7) (v : BitVec w) (n : Nat)
    (hw : w ≤ 8) (hs : n + w ≤ 14) (ha : a.toNat < 2 ^ n) :
    lowBits (n + w) (a.setWidth 14 ||| (v.setWidth 14 <<< n) : BitVec 14) = lowBits n a ++ lowBits w v := by
  apply List.ext_getElem? ; intro j
  simp only [List.getElem?_append, lowBits_length, lowBits_getElem?]
  by_cases h : j < n
  · simp [h, show j < n + w by omega, show j < 14 by omega]
  · by_cases h2 : j < n + w
    · have := getLsbD_of_toNat_lt ha (show n ≤ j by omega)
      simp [h, h2, this, show j - n < w by omega, show j < 14 by omega]
    · simp [h, h2, show ¬ (j - n < w) by omega]

@[simp] theorem octetBits_nil : octetBits [] = [] := rfl

@[simp] theorem octetBits_append (a b : List Octet) :
    octetBits (a ++ b) = octetBits a ++ octetBits b := by simp [octetBits]

@[simp] theorem octetBits_singleton (b : Octet) : octetBits [b] = lowBits 8 b := by simp [octetBits]

theorem octetBits_cons (b : Octet) (l : List Octet) :
    octetBits (b :: l) = lowBits 8 b ++ octetBits l := by simp [octetBits]

@[simp] theorem septetBits_nil : septetBits [] = [] := rfl

@[simp] theorem septetBits_append (a b : List Septet) :
    septetBits (a ++ b) = septetBits a ++ septetBits b := by simp [septetBits]

@[simp] theorem septetBits_singleton (s : Septet) : septetBits [s] = lowBits 7 s := by simp [septetBits]

theorem septetBits_cons (s : Septet) (l : List Septet) :
    septetBits (s :: l) = lowBits 7 s ++ septetBits l := by simp [septetBits]

@[simp] theorem octetBits_length (l : List Octet) : (octetBits l).length = 8 * l.length := by
  induction l with
  | nil => rfl
  | cons b l ih => simp [octetBits_cons, ih]; omega

@[simp] theorem septetBits_length (l : List Septet) : (septetBits l).length = 7 * l.length := by
  induction l with
  | nil => rfl
  | cons b l ih => simp [septetBits_cons, ih]; omega

/-- 20_memory R44: stream bit `j` is bit `j mod 8` of octet `floor(j / 8)`. -/
theorem octetBits_getElem? (o : List Octet) (j : Nat) : (octetBits o)[j]? = streamBit o j := by
  induction o generalizing j with
  | nil => simp [streamBit]
  | cons b o ih =>
    rw [octetBits_cons, List.getElem?_append, lowBits_length, lowBits_getElem?]
    by_cases h : j < 8
    · simp [h, streamBit, Nat.div_eq_of_lt h, Nat.mod_eq_of_lt h]
    · simp only [h, if_false, ih, streamBit]
      have h1 : j / 8 = (j - 8) / 8 + 1 := by omega
      have h2 : j % 8 = (j - 8) % 8 := by omega
      rw [h1, h2, List.getElem?_cons_succ]

/-- 20_memory R44: septet `i` occupies stream bits `7 * i` to `7 * i + 6`. -/
theorem septetBits_getElem? (l : List Septet) (i b : Nat) (hb : b < 7) :
    (septetBits l)[7 * i + b]? = (l[i]?).map (fun s => s.getLsbD b) := by
  induction l generalizing i with
  | nil => simp
  | cons s l ih =>
    rw [septetBits_cons, List.getElem?_append, lowBits_length, lowBits_getElem?]
    cases i with
    | zero => simp [hb]
    | succ i =>
      rw [if_neg (by omega), show 7 * (i + 1) + b - 7 = 7 * i + b by omega, ih]; simp

/-- Equal bits, equal septet. -/
theorem lowBits_inj {w : Nat} {a b : BitVec w} (h : lowBits w a = lowBits w b) : a = b := by
  apply BitVec.eq_of_getLsbD_eq ; intro j hj
  have h1 : (lowBits w a)[j]? = (lowBits w b)[j]? := by rw [h]
  simpa only [lowBits_getElem?, hj, if_true, Option.some.injEq] using h1

end Sys2Proof.Laws
end

