-- ==== Sys2Proof/Laws/State.lean ====
section
/-! SUPPORT. One lemma per field per update of the state, true by rfl. -/

namespace Sys2Proof.Laws

open Sys2Proof.Machine

@[simp] theorem closeEnc_acc (e : Enc) : (closeEnc e).acc = e.acc := rfl
@[simp] theorem closeEnc_k (e : Enc) : (closeEnc e).k = e.k := rfl
@[simp] theorem closeEnc_st (e : Enc) : (closeEnc e).st = .closed := rfl
@[simp] theorem closeEnc_sink (e : Enc) : (closeEnc e).sink = e.sink := rfl
@[simp] theorem closeEnc_writes (e : Enc) : (closeEnc e).writes = e.writes := rfl

@[simp] theorem sinkFailed_acc (n : Nat) (e : Enc) : (sinkFailed n e).acc = Config.freeAcc n := rfl
@[simp] theorem sinkFailed_k (n : Nat) (e : Enc) : (sinkFailed n e).k = Config.freeK n := rfl
@[simp] theorem sinkFailed_st (n : Nat) (e : Enc) : (sinkFailed n e).st = .closed := rfl
@[simp] theorem sinkFailed_sink (n : Nat) (e : Enc) : (sinkFailed n e).sink = e.sink := rfl
@[simp] theorem sinkFailed_writes (n : Nat) (e : Enc) : (sinkFailed n e).writes = e.writes := rfl

@[simp] theorem freshEnc_acc (e : Enc) : (freshEnc e).acc = 0 := rfl
@[simp] theorem freshEnc_k (e : Enc) : (freshEnc e).k = 0 := rfl
@[simp] theorem freshEnc_st (e : Enc) : (freshEnc e).st = .opened := rfl
@[simp] theorem freshEnc_sink (e : Enc) : (freshEnc e).sink = [] := rfl
@[simp] theorem freshEnc_writes (e : Enc) : (freshEnc e).writes = e.writes := rfl

@[simp] theorem endDec_acc (d : Dec) : (endDec d).acc = d.acc := rfl
@[simp] theorem endDec_r (d : Dec) : (endDec d).r = d.r := rfl
@[simp] theorem endDec_pos (d : Dec) : (endDec d).pos = d.pos := rfl
@[simp] theorem endDec_st (d : Dec) : (endDec d).st = .ended := rfl
@[simp] theorem endDec_err (d : Dec) : (endDec d).err = d.err := rfl
@[simp] theorem endDec_src (d : Dec) : (endDec d).src = d.src := rfl
@[simp] theorem endDec_rp (d : Dec) : (endDec d).rp = d.rp := rfl
@[simp] theorem endDec_reads (d : Dec) : (endDec d).reads = d.reads := rfl

@[simp] theorem failDec_acc (a : Status) (b : BitVec 21) (c : Word) (d : Dec) : (failDec a b c d).acc = d.acc := rfl
@[simp] theorem failDec_r (a : Status) (b : BitVec 21) (c : Word) (d : Dec) : (failDec a b c d).r = d.r := rfl
@[simp] theorem failDec_pos (a : Status) (b : BitVec 21) (c : Word) (d : Dec) : (failDec a b c d).pos = d.pos := rfl
@[simp] theorem failDec_st (a : Status) (b : BitVec 21) (c : Word) (d : Dec) : (failDec a b c d).st = .failed := rfl
@[simp] theorem failDec_err (a : Status) (b : BitVec 21) (c : Word) (d : Dec) : (failDec a b c d).err = ⟨a, b, c⟩ := rfl
@[simp] theorem failDec_src (a : Status) (b : BitVec 21) (c : Word) (d : Dec) : (failDec a b c d).src = d.src := rfl
@[simp] theorem failDec_rp (a : Status) (b : BitVec 21) (c : Word) (d : Dec) : (failDec a b c d).rp = d.rp := rfl
@[simp] theorem failDec_reads (a : Status) (b : BitVec 21) (c : Word) (d : Dec) : (failDec a b c d).reads = d.reads := rfl

@[simp] theorem freshDec_acc (l : List Octet) (d : Dec) : (freshDec l d).acc = 0 := rfl
@[simp] theorem freshDec_r (l : List Octet) (d : Dec) : (freshDec l d).r = 0 := rfl
@[simp] theorem freshDec_pos (l : List Octet) (d : Dec) : (freshDec l d).pos = 0 := rfl
@[simp] theorem freshDec_st (l : List Octet) (d : Dec) : (freshDec l d).st = .run := rfl
@[simp] theorem freshDec_err (l : List Octet) (d : Dec) : (freshDec l d).err = ⟨.ok, 0, 0⟩ := rfl
@[simp] theorem freshDec_src (l : List Octet) (d : Dec) : (freshDec l d).src = l := rfl
@[simp] theorem freshDec_rp (l : List Octet) (d : Dec) : (freshDec l d).rp = 0 := rfl
@[simp] theorem freshDec_reads (l : List Octet) (d : Dec) : (freshDec l d).reads = d.reads := rfl

@[simp] theorem answerEnc_enc (s : State) (p : Enc × Response) : (answerEnc s p).enc = p.1 := rfl
@[simp] theorem answerEnc_dec (s : State) (p : Enc × Response) : (answerEnc s p).dec = s.dec := rfl
@[simp] theorem answerEnc_srcIn (s : State) (p : Enc × Response) : (answerEnc s p).srcIn = s.srcIn := rfl
@[simp] theorem answerEnc_pending (s : State) (p : Enc × Response) : (answerEnc s p).pending = s.pending := rfl
@[simp] theorem answerEnc_encRsp (s : State) (p : Enc × Response) : (answerEnc s p).encRsp = s.encRsp ++ [p.2] := rfl
@[simp] theorem answerEnc_decRsp (s : State) (p : Enc × Response) : (answerEnc s p).decRsp = s.decRsp := rfl

@[simp] theorem answerDec_enc (s : State) (p : Dec × Response) : (answerDec s p).enc = s.enc := rfl
@[simp] theorem answerDec_dec (s : State) (p : Dec × Response) : (answerDec s p).dec = p.1 := rfl
@[simp] theorem answerDec_srcIn (s : State) (p : Dec × Response) : (answerDec s p).srcIn = s.srcIn := rfl
@[simp] theorem answerDec_pending (s : State) (p : Dec × Response) : (answerDec s p).pending = s.pending := rfl
@[simp] theorem answerDec_encRsp (s : State) (p : Dec × Response) : (answerDec s p).encRsp = s.encRsp := rfl
@[simp] theorem answerDec_decRsp (s : State) (p : Dec × Response) : (answerDec s p).decRsp = s.decRsp ++ [p.2] := rfl

@[simp] theorem hardwareReset_enc (s : State) : (hardwareReset s).enc = freshEnc s.enc := rfl
@[simp] theorem hardwareReset_dec (s : State) : (hardwareReset s).dec = freshDec s.srcIn s.dec := rfl
@[simp] theorem hardwareReset_srcIn (s : State) : (hardwareReset s).srcIn = s.srcIn := rfl
@[simp] theorem hardwareReset_pending (s : State) : (hardwareReset s).pending = s.pending := rfl
@[simp] theorem hardwareReset_encRsp (s : State) : (hardwareReset s).encRsp = s.encRsp := rfl
@[simp] theorem hardwareReset_decRsp (s : State) : (hardwareReset s).decRsp = s.decRsp := rfl

@[simp] theorem sendNext_enc (s : State) (w : Word) : (sendNext s w).enc = s.enc := rfl
@[simp] theorem sendNext_dec (s : State) (w : Word) : (sendNext s w).dec = s.dec := rfl
@[simp] theorem sendNext_srcIn (s : State) (w : Word) : (sendNext s w).srcIn = s.srcIn := rfl
@[simp] theorem sendNext_pending (s : State) (w : Word) : (sendNext s w).pending = commandEvent s w :: s.pending := rfl
@[simp] theorem sendNext_encRsp (s : State) (w : Word) : (sendNext s w).encRsp = s.encRsp := rfl
@[simp] theorem sendNext_decRsp (s : State) (w : Word) : (sendNext s w).decRsp = s.decRsp := rfl

@[simp] theorem raiseDec_fst (a : Status) (b : BitVec 21) (c : Word) (d : Dec) :
    (raiseDec a b c d).1 = failDec a b c d := rfl
@[simp] theorem raiseDec_snd (a : Status) (b : BitVec 21) (c : Word) (d : Dec) :
    (raiseDec a b c d).2 = raise a b c := rfl
@[simp] theorem raiseStored_fst (d : Dec) : (raiseStored d).1 = d := rfl
@[simp] theorem raiseStored_snd (d : Dec) :
    (raiseStored d).2 = raise d.err.kind d.err.val d.err.aux := rfl

end Sys2Proof.Laws
end

