-- ==== Sys2Proof/Laws/Ops.lean ====
section
/-! SUPPORT. What each shared operation can do, said once: transfers, the bit engine, counting, lookups. -/

namespace Sys2Proof.Laws

open Sys2Proof.Machine

/-! ### The platform's failures -/

@[simp] theorem failureAt_nil (n : Nat) : failureAt [] n = none := rfl

@[simp] theorem never_sink : IoFail.never.sink = [] := rfl

@[simp] theorem never_source : IoFail.never.source = [] := rfl

@[simp] theorem gsm7Core_ioFail : Config.gsm7Core.ioFail = .never := rfl

@[simp] theorem gsm7Core_posW : Config.gsm7Core.posW = 32 := rfl

@[simp] theorem gsm7Core_padFill : Config.gsm7Core.padFill = 1 := rfl

/-- On a platform that never fails every transfer is accepted (20_memory R51). -/
theorem accepts_nil (n q : Nat) : accepts [] n q := fun _ _ => rfl

theorem accepts_zero (rows : List (Nat × Word)) (n : Nat) : accepts rows n 0 :=
  fun _ h => absurd h (Nat.not_lt_zero _)

/-- The first of the transfers accepted, and the rest. -/
theorem accepts_succ {rows : List (Nat × Word)} {n q : Nat} (h : accepts rows n (q + 1)) :
    failureAt rows n = none ∧ accepts rows (n + 1) q :=
  ⟨h 0 (Nat.succ_pos q), fun j hj => by
    rw [Nat.add_right_comm]; exact h (j + 1) (Nat.succ_lt_succ hj)⟩

theorem failsAfter_zero {rows : List (Nat × Word)} {n : Nat} {w : Word} (h : failsAfter rows n 0 w) :
    failureAt rows n = some w := h.2

theorem failsAfter_succ {rows : List (Nat × Word)} {n q : Nat} {w : Word} (h : failsAfter rows n (q + 1) w) :
    failureAt rows n = none ∧ failsAfter rows (n + 1) q w :=
  ⟨(accepts_succ h.1).1, (accepts_succ h.1).2, by
    rw [Nat.add_right_comm]; exact h.2⟩

/-- A transfer that fails after one that is accepted. -/
theorem failsAfter_cons {rows : List (Nat × Word)} {n q : Nat} {w : Word} (h : failureAt rows n = none)
    (hf : failsAfter rows (n + 1) q w) : failsAfter rows n (q + 1) w := by
  refine ⟨fun j hj => ?_, by rw [← Nat.add_assoc, Nat.add_right_comm]; exact hf.2⟩
  cases j with
  | zero => exact h
  | succ j => rw [← Nat.add_assoc, Nat.add_right_comm]; exact hf.1 j (Nat.lt_of_succ_lt_succ hj)

/-! ### Transfers -/

/-- 20_memory R42: `SinkWrite` appends one octet, or fails and leaves the sink. -/
theorem sinkWrite_cases (c : Config) (v : Octet) (e : Enc) :
    (failureAt c.ioFail.sink e.writes = none ∧
      sinkWrite c v e = (none, { e with writes := e.writes + 1, sink := e.sink ++ [v] })) ∨
    (∃ w, failureAt c.ioFail.sink e.writes = some w ∧
      sinkWrite c v e = (some w, { e with writes := e.writes + 1 })) := by
  cases h : failureAt c.ioFail.sink e.writes with
  | none => exact .inl ⟨rfl, by simp [sinkWrite, h]⟩
  | some w => exact .inr ⟨w, rfl, by simp [sinkWrite, h]⟩

/-- 20_memory R41: `SrcRead` fails, finds the source used up, or reads one octet. -/
theorem srcRead_cases (c : Config) (d : Dec) :
    (∃ w, failureAt c.ioFail.source d.reads = some w ∧
      srcRead c d = (.fail w, { d with reads := d.reads + 1 })) ∨
    (failureAt c.ioFail.source d.reads = none ∧ d.src[d.rp]? = none ∧
      srcRead c d = (.exhausted, { d with reads := d.reads + 1 })) ∨
    (∃ b, failureAt c.ioFail.source d.reads = none ∧ d.src[d.rp]? = some b ∧
      srcRead c d = (.octet b, { d with reads := d.reads + 1, rp := d.rp + 1 })) := by
  cases h : failureAt c.ioFail.source d.reads with
  | some w => exact .inl ⟨w, rfl, by simp [srcRead, h]⟩
  | none =>
    cases hs : d.src[d.rp]? with
    | none => exact .inr (.inl ⟨rfl, rfl, by simp [srcRead, h, hs]⟩)
    | some b => exact .inr (.inr ⟨b, rfl, rfl, by simp [srcRead, h, hs]⟩)

/-! ### Packing -/

/-- 41_bit_engine R106: held bits and new bits do not overlap, so their or is a sum. -/
theorem or_shift_toNat {w : Nat} (a : BitVec 7) (v : BitVec w) (n : Nat)
    (hw : w ≤ 8) (hs : n + w ≤ 14) (ha : a.toNat < 2 ^ n) :
    (a.setWidth 14 ||| (v.setWidth 14 <<< n) : BitVec 14).toNat = a.toNat + 2 ^ n * v.toNat := by
  have hv : v.toNat < 2 ^ w := v.isLt
  have h1 : v.toNat * 2 ^ n < 2 ^ 14 := by
    calc v.toNat * 2 ^ n < 2 ^ w * 2 ^ n := by
          exact Nat.mul_lt_mul_of_pos_right hv (Nat.two_pow_pos n)
      _ = 2 ^ (n + w) := by rw [← Nat.pow_add, Nat.add_comm]
      _ ≤ 2 ^ 14 := Nat.pow_le_pow_right (by decide) hs
  have h2 : v.toNat < 2 ^ 14 := Nat.lt_of_lt_of_le hv (Nat.pow_le_pow_right (by decide) (by omega))
  have h3 : a.toNat < 2 ^ 14 := Nat.lt_of_lt_of_le a.isLt (by decide)
  simp only [BitVec.toNat_or, BitVec.toNat_setWidth, BitVec.toNat_shiftLeft,
    Nat.mod_eq_of_lt h2, Nat.mod_eq_of_lt h3, Nat.shiftLeft_eq, Nat.mod_eq_of_lt h1]
  rw [Nat.or_comm, Nat.mul_comm v.toNat, ← Nat.two_pow_add_eq_or_of_lt ha, Nat.add_comm]

/-- 41_bit_engine R100 with `ENC.K = 0`: the septet is held, nothing is written. -/
theorem packPut_holds {c : Config} {s : Septet} {e : Enc} (hk : e.k = 0) (ha : e.acc.toNat < 2 ^ e.k.toNat) :
    packPut c s e = (none, { e with acc := s, k := 7 }) := by
  have h0 : e.acc = 0 := by
    apply BitVec.eq_of_toNat_eq; rw [hk] at ha; simpa using ha
  have : e = { e with acc := 0, k := 0 } := by rw [← h0, ← hk]
  simp only [packPut, hk, h0]
  have h7 : BitVec.extractLsb' 0 7 (BitVec.setWidth 14 s) = s := by
    apply BitVec.eq_of_getLsbD_eq ; intro j hj
    simp [hj]; omega
  simp [h7]

/-- What `PackPut` can do (41_bit_engine R100): hold the septet, write one octet, or fail on it. -/
theorem packPut_cases (c : Config) (s : Septet) (e : Enc) (ha : e.acc.toNat < 2 ^ e.k.toNat) :
    (e.k = 0 ∧ packPut c s e = (none, { e with acc := s, k := 7 })) ∨
    (e.k ≠ 0 ∧ ∃ w, failureAt c.ioFail.sink e.writes = some w ∧
      packPut c s e = (some w, sinkFailed e.writes { e with writes := e.writes + 1 })) ∨
    (e.k ≠ 0 ∧ failureAt c.ioFail.sink e.writes = none ∧ ∃ (o : Octet) (a : BitVec 7),
      packPut c s e = (none,
        { e with writes := e.writes + 1, sink := e.sink ++ [o], acc := a, k := BitVec.ofNat 3 (e.k.toNat - 1) }) ∧
      256 * a.toNat + o.toNat = e.acc.toNat + 2 ^ e.k.toNat * s.toNat ∧
      a.toNat < 2 ^ (e.k.toNat - 1) ∧
      lowBits 8 o ++ lowBits (e.k.toNat - 1) a = lowBits e.k.toNat e.acc ++ lowBits 7 s) := by
  by_cases hk : e.k = 0
  · exact .inl ⟨hk, packPut_holds hk ha⟩
  · have hk0 : e.k.toNat ≠ 0 := fun h => hk (BitVec.eq_of_toNat_eq (by simpa using h))
    have hk7 : e.k.toNat ≤ 7 := by have := e.k.isLt; omega
    have h8 : 8 ≤ e.k.toNat + 7 := by omega
    right
    rcases sinkWrite_cases c (BitVec.extractLsb' 0 8
        (e.acc.setWidth 14 ||| (s.setWidth 14 <<< e.k.toNat) : BitVec 14)) e with ⟨h, hw⟩ | ⟨w, h, hw⟩
    · refine .inr ⟨hk, h, BitVec.extractLsb' 0 8
        (e.acc.setWidth 14 ||| (s.setWidth 14 <<< e.k.toNat) : BitVec 14), (BitVec.extractLsb' 8 6
        (e.acc.setWidth 14 ||| (s.setWidth 14 <<< e.k.toNat) : BitVec 14)).setWidth 7, ?_, ?_⟩
      · simp only [packPut, h8, if_true, hw]
        simp [show e.k.toNat + 7 - 8 = e.k.toNat - 1 by omega]
      · generalize ht : (e.acc.setWidth 14 ||| (s.setWidth 14 <<< e.k.toNat) : BitVec 14) = t
        have htn : t.toNat = e.acc.toNat + 2 ^ e.k.toNat * s.toNat := by
          rw [← ht]; exact or_shift_toNat e.acc s e.k.toNat (by decide) (by omega) ha
        have hs : s.toNat ≤ 127 := by have := s.isLt; omega
        have htb : t.toNat < 2 ^ (e.k.toNat + 7) := by
          rw [htn, Nat.pow_add]
          have : 2 ^ e.k.toNat * s.toNat ≤ 2 ^ e.k.toNat * 127 := Nat.mul_le_mul_left _ hs
          omega
        have h14 : t.toNat < 16384 := t.isLt
        have ha' : ((t.extractLsb' 8 6).setWidth 7).toNat = t.toNat / 256 := by
          simp only [BitVec.toNat_setWidth, BitVec.extractLsb'_toNat, Nat.shiftRight_eq_div_pow]
          omega
        have ho' : (t.extractLsb' 0 8).toNat = t.toNat % 256 := by
          simp [BitVec.extractLsb'_toNat]
        refine ⟨by omega, ?_, ?_⟩
        · rw [ha', Nat.div_lt_iff_lt_mul (by decide)]
          calc t.toNat < 2 ^ (e.k.toNat + 7) := htb
            _ = 2 ^ (e.k.toNat - 1) * 256 := by
              rw [show e.k.toNat + 7 = (e.k.toNat - 1) + 8 by omega, Nat.pow_add]
        · have hb := lowBits_join e.acc s e.k.toNat (by decide) (by omega) ha
          rw [ht] at hb
          rw [← hb, show e.k.toNat + 7 = 8 + (e.k.toNat - 1) by omega, lowBits_add]
          congr 1
          · apply lowBits_congr ; intro j hj; simp [hj]
          · apply lowBits_congr ; intro j hj
            simp only [BitVec.getLsbD_setWidth, BitVec.getLsbD_extractLsb']
            simp [show j < 6 by omega, show j < 7 by omega, hj]
    · exact .inl ⟨hk, w, h, by simp only [packPut, h8, if_true, hw]⟩

/-- What `PackFlush` can do (41_bit_engine R101): nothing with no bit held, else one padded octet, or fail on
it. -/
theorem packFlush_cases (c : Config) (e : Enc) :
    (e.k = 0 ∧ packFlush c e = (none, e)) ∨
    (e.k ≠ 0 ∧ ∃ w, failureAt c.ioFail.sink e.writes = some w ∧
      packFlush c e = (some w, sinkFailed e.writes { e with writes := e.writes + 1 })) ∨
    (e.k ≠ 0 ∧ failureAt c.ioFail.sink e.writes = none ∧
      packFlush c e = (none,
        { e with writes := e.writes + 1, acc := 0, k := 0, sink := e.sink ++ [e.acc.setWidth 8 ||| padBits c.padFill e.k] })) := by
  by_cases hk : e.k = 0
  · exact .inl ⟨hk, by simp [packFlush, hk]⟩
  · right
    rcases sinkWrite_cases c (e.acc.setWidth 8 ||| padBits c.padFill e.k) e with ⟨h, hw⟩ | ⟨w, h, hw⟩
    · exact .inr ⟨hk, h, by simp only [packFlush, if_neg hk, hw]⟩
    · exact .inl ⟨hk, w, h, by simp only [packFlush, if_neg hk, hw]⟩

/-! ### Unpacking -/

theorem lt_two_pow_zero {v : BitVec 7} (h : v.toNat < 2 ^ (0 : BitVec 3).toNat) : v = 0 :=
  BitVec.eq_of_toNat_eq (by simpa using h)

/-- What `UnpackGet` can do (41_bit_engine R102): hand out a septet, find the source used up, or fail. -/
theorem unpackGet_cases (c : Config) (d : Dec) (ha : d.acc.toNat < 2 ^ d.r.toNat) :
    (∃ x d1, takesSeptet c d x d1 ∧ unpackGet c d = (.septet x, { d1 with pos := d.pos })) ∨
    (∃ d1, runsOut c d d1 ∧ unpackGet c d = (.exhausted, d1)) ∨
    (∃ w d1, readFails c d w d1 ∧ unpackGet c d = (.fail w, d1)) := by
  by_cases hr : d.r = 7
  · exact .inl ⟨_, _, .inl ⟨hr, rfl, rfl⟩, by simp [unpackGet, hr]⟩
  · have h7 : d.r.toNat ≤ 6 := by
      have h1 := d.r.isLt
      have h2 : d.r.toNat ≠ 7 := fun h => hr (BitVec.eq_of_toNat_eq (by simpa using h))
      omega
    rcases srcRead_cases c d with ⟨w, hf, he⟩ | ⟨hok, hs, he⟩ | ⟨b, hok, hs, he⟩
    · exact .inr (.inr ⟨w, _, ⟨hr, hf, rfl⟩, by simp only [unpackGet, if_neg hr, he]⟩)
    · exact .inr (.inl ⟨_, ⟨hr, hok, hs, rfl⟩, by simp only [unpackGet, if_neg hr, he]⟩)
    · refine .inl ⟨_, _, .inr ⟨hr, hok, b, hs, rfl, rfl⟩, ?_⟩
      have ht := or_shift_toNat d.acc b d.r.toNat (by decide) (by omega) ha
      simp only [unpackGet, hr, if_false, he]
      refine Prod.ext ?_ ?_
      · simp only [Unpacked.septet.injEq]
        apply BitVec.eq_of_toNat_eq
        rw [BitVec.extractLsb'_toNat, ht]; simp
      · simp only [Dec.mk.injEq, and_true]
        apply BitVec.eq_of_toNat_eq
        rw [BitVec.extractLsb'_toNat, ht]; simp [Nat.shiftRight_eq_div_pow]

/-- `takesSeptet` is `UnpackGet` (41_bit_engine R102) with the count. -/
theorem unpackGet_of_takes {c : Config} {d d1 : Dec} {x : Septet} (ha : d.acc.toNat < 2 ^ d.r.toNat)
    (h : takesSeptet c d x d1) : unpackGet c d = (.septet x, { d1 with pos := d.pos }) := by
  rcases unpackGet_cases c d ha with ⟨x', d', h', he⟩ | ⟨d', h', he⟩ | ⟨w, d', h', he⟩
  · rw [he]
    rcases h with ⟨hr, rfl, rfl⟩ | ⟨hr, hok, b, hb, rfl, rfl⟩ <;>
    rcases h' with ⟨hr', rfl, rfl⟩ | ⟨hr', hok', b', hb', rfl, rfl⟩ <;> simp_all
  · rcases h with ⟨hr, rfl, rfl⟩ | ⟨hr, hok, b, hb, rfl, rfl⟩ <;>
    obtain ⟨hr', hok', hn, rfl⟩ := h' <;> simp_all
  · rcases h with ⟨hr, rfl, rfl⟩ | ⟨hr, hok, b, hb, rfl, rfl⟩
    · exact absurd hr h'.1
    · have h2 := h'.2.1
      rw [hok] at h2; cases h2

theorem unpackGet_of_runsOut {c : Config} {d d1 : Dec} (h : runsOut c d d1) : unpackGet c d = (.exhausted, d1) := by
  obtain ⟨hr, hok, hn, rfl⟩ := h
  simp only [unpackGet, if_neg hr, srcRead, hok, hn]

theorem unpackGet_of_readFails {c : Config} {d d1 : Dec} {w : Word} (h : readFails c d w d1) :
    unpackGet c d = (.fail w, d1) := by
  obtain ⟨hr, hf, rfl⟩ := h
  simp only [unpackGet, if_neg hr, srcRead, hf]

/-- A septet handed out is the first 7 of the bits not yet handed out, and the held bits still fit
(20_memory R44, 41_bit_engine R106). -/
theorem takesSeptet_bits {c : Config} {d d1 : Dec} {x : Septet} (ha : d.acc.toNat < 2 ^ d.r.toNat)
    (h : takesSeptet c d x d1) :
    lowBits d.r.toNat d.acc ++ octetBits (d.src.drop d.rp) =
      lowBits 7 x ++ (lowBits d1.r.toNat d1.acc ++ octetBits (d1.src.drop d1.rp)) ∧
    d1.acc.toNat < 2 ^ d1.r.toNat := by
  rcases h with ⟨hr, rfl, rfl⟩ | ⟨hr, hok, b, hb, rfl, rfl⟩
  · simp [hr]
  · have h7 : d.r.toNat ≤ 6 := by
      have h1 := d.r.isLt
      have h2 : d.r.toNat ≠ 7 := fun h => hr (BitVec.eq_of_toNat_eq (by simpa using h))
      omega
    have hr1 : (d.r + 1).toNat = d.r.toNat + 1 := by simp; omega
    have ht := or_shift_toNat d.acc b d.r.toNat (by decide) (by omega) ha
    have hl := lowBits_join d.acc b d.r.toNat (by decide) (by omega) ha
    generalize hT : (d.acc.setWidth 14 ||| (b.setWidth 14 <<< d.r.toNat) : BitVec 14) = t at ht hl
    have hlen := (List.getElem?_eq_some_iff.mp hb).1
    have hdrop : d.src.drop d.rp = b :: d.src.drop (d.rp + 1) := by
      rw [List.drop_eq_getElem_cons hlen]
      rw [List.getElem?_eq_getElem hlen, Option.some.injEq] at hb
      rw [hb]
    have htb : t.toNat < 2 ^ (d.r.toNat + 8) := by
      rw [ht, Nat.pow_add]
      have hb8 : b.toNat ≤ 255 := by have := b.isLt; omega
      have : 2 ^ d.r.toNat * b.toNat ≤ 2 ^ d.r.toNat * 255 := Nat.mul_le_mul_left _ hb8
      omega
    have h14 : t.toNat < 16384 := t.isLt
    constructor
    · simp only [hr1, hdrop, octetBits_cons]
      rw [← List.append_assoc, ← List.append_assoc, ← hl,
        show d.r.toNat + 8 = 7 + (d.r.toNat + 1) by omega, lowBits_add]
      congr 2
      · apply lowBits_congr ; intro j hj
        rw [← ht, BitVec.getLsbD_ofNat]; simp only [hj, decide_true, Bool.true_and]; rfl
      · apply lowBits_congr ; intro j hj
        rw [← ht, BitVec.getLsbD_ofNat, BitVec.getLsbD_extractLsb',
          show (128 : Nat) = 2 ^ 7 from rfl, Nat.testBit_div_two_pow]
        simp only [hj, show j < 7 by omega, decide_true, Bool.true_and, Nat.add_comm j 7]; rfl
    · show (BitVec.ofNat 7 _).toNat < 2 ^ (d.r + 1).toNat
      rw [hr1, ← ht, BitVec.toNat_ofNat, Nat.mod_eq_of_lt (by omega),
        Nat.div_lt_iff_lt_mul (by decide)]
      calc t.toNat < 2 ^ (d.r.toNat + 8) := htb
        _ = 2 ^ (d.r.toNat + 1) * 128 := by
          rw [show d.r.toNat + 8 = (d.r.toNat + 1) + 7 by omega, Nat.pow_add]

end Sys2Proof.Laws
end

