-- ==== Sys2Proof/Laws/Decoder.lean ====
section
/-! SUPPORT. What taking a septet does to the cursor, and all that `DEC.NEXT` can do in state `RUN` (43_decoder R140). -/

namespace Sys2Proof.Laws

open Sys2Proof.Machine

/-- The held bits fit `DEC.R` after a septet is taken (10_state R21). -/
theorem takes_acc {c : Config} {d d1 : Dec} {x : Septet} (ha : d.acc.toNat < 2 ^ d.r.toNat) (h : takesSeptet c d x d1) :
    d1.acc.toNat < 2 ^ d1.r.toNat := (takesSeptet_bits ha h).2

/-- A septet taken is counted (43_decoder R144). -/
theorem takes_pos {c : Config} {d d1 : Dec} {x : Septet} (h : takesSeptet c d x d1) : d1.pos = d.pos + 1 := by
  rcases h with ⟨_, _, rfl⟩ | ⟨_, _, b, _, _, rfl⟩ <;> rfl

/-- The count of a septet that `POS_W` bits can hold (43_decoder R144). -/
theorem count_ok {c : Config} {d d1 : Dec} (hp : d1.pos = d.pos + 1) (h : d.pos.toNat + 1 < 2 ^ c.posW) :
    countSeptet c { d1 with pos := d.pos } = some d1 := by
  simp only [countSeptet, h, if_true]; rw [← hp]

/-- All that `DEC.NEXT` can do in state `RUN` (43_decoder R140). -/
theorem decRun_cases (c : Config) (d : Dec) (ha : d.acc.toNat < 2 ^ d.r.toNat) :
    (∃ x d1 cp, takesSeptet c d x d1 ∧ x ≠ escape ∧ d.pos.toNat + 1 < 2 ^ c.posW ∧ lutDecB c.alphabet x = some cp ∧
      decRun c d = .ok (d1, okChar cp)) ∨
    (∃ x d1, takesSeptet c d x d1 ∧ x ≠ escape ∧ d.pos.toNat + 1 < 2 ^ c.posW ∧ lutDecB c.alphabet x = none ∧
      decRun c d = .ok (raiseDec .invalidSeptet (septetVal x) d.pos d1)) ∨
    (∃ x d1 d2 cp, takesSeptet c d escape d1 ∧ takesSeptet c d1 x d2 ∧
      d.pos.toNat + 1 < 2 ^ c.posW ∧ d1.pos.toNat + 1 < 2 ^ c.posW ∧ lutDecX c.alphabet x = some cp ∧
      decRun c d = .ok (d2, okChar cp)) ∨
    (∃ x d1 d2, takesSeptet c d escape d1 ∧ takesSeptet c d1 x d2 ∧
      d.pos.toNat + 1 < 2 ^ c.posW ∧ d1.pos.toNat + 1 < 2 ^ c.posW ∧ lutDecX c.alphabet x = none ∧
      decRun c d = .ok (raiseDec .invalidSeptet (septetVal x) (d.pos + 1) d2)) ∨
    (∃ d1, runsOut c d d1 ∧
      decRun c d = .ok (endDec d1, okEnd)) ∨
    (∃ d1 d2, takesSeptet c d escape d1 ∧ d.pos.toNat + 1 < 2 ^ c.posW ∧ runsOut c d1 d2 ∧
      decRun c d = .ok (raiseDec .danglingEscape (septetVal escape) d.pos d2)) ∨
    (∃ d1 w, readFails c d w d1 ∧
      decRun c d = .ok (raiseDec .underlyingIOFailure 0 w d1)) ∨
    (∃ d1 d2 w, takesSeptet c d escape d1 ∧ d.pos.toNat + 1 < 2 ^ c.posW ∧ readFails c d1 w d2 ∧
      decRun c d = .ok (raiseDec .underlyingIOFailure 0 w d2)) ∨
    (∃ x d1, takesSeptet c d x d1 ∧ ¬ d.pos.toNat + 1 < 2 ^ c.posW ∧
      decRun c d = .error .positionOverflow) ∨
    (∃ x d1 d2, takesSeptet c d escape d1 ∧ takesSeptet c d1 x d2 ∧ ¬ d1.pos.toNat + 1 < 2 ^ c.posW ∧
      decRun c d = .error .positionOverflow) := by
  rcases unpackGet_cases c d ha with ⟨x, d1, ht, he⟩ | ⟨d1, hr, he⟩ | ⟨w, d1, hr, he⟩
  · by_cases hp : d.pos.toNat + 1 < 2 ^ c.posW
    · have h2 : countSeptet c { d1 with pos := d.pos } = some d1 := count_ok (takes_pos ht) hp
      by_cases hx : x = escape
      · subst hx
        rcases unpackGet_cases c d1 (takes_acc ha ht) with ⟨y, d2, ht2, he2⟩ | ⟨d2, hr2, he2⟩ | ⟨w, d2, hr2, he2⟩
        · by_cases hp2 : d1.pos.toNat + 1 < 2 ^ c.posW
          · have h4 : countSeptet c { d2 with pos := d1.pos } = some d2 := count_ok (takes_pos ht2) hp2
            cases hl : lutDecX c.alphabet y with
            | some cp => exact .inr (.inr (.inl ⟨y, d1, d2, cp, ht, ht2, hp, hp2, hl, by simp only [decRun, he, h2, if_true, decEscaped, he2, h4, hl, resolve]⟩))
            | none => exact .inr (.inr (.inr (.inl ⟨y, d1, d2, ht, ht2, hp, hp2, hl, by simp only [decRun, he, h2, if_true, decEscaped, he2, h4, hl, resolve]⟩)))
          · have h4 : countSeptet c { d2 with pos := d1.pos } = none := by simp only [countSeptet, if_neg hp2]
            exact .inr (.inr (.inr (.inr (.inr (.inr (.inr (.inr (.inr ⟨y, d1, d2, ht, ht2, hp2, by simp only [decRun, he, h2, if_true, decEscaped, he2, h4]⟩))))))))
        · exact .inr (.inr (.inr (.inr (.inr (.inl ⟨d1, d2, ht, hp, hr2, by simp only [decRun, he, h2, if_true, decEscaped, he2]⟩)))))
        · exact .inr (.inr (.inr (.inr (.inr (.inr (.inr (.inl ⟨d1, d2, w, ht, hp, hr2, by simp only [decRun, he, h2, if_true, decEscaped, he2]⟩)))))))
      · cases hl : lutDecB c.alphabet x with
        | some cp => exact .inl ⟨x, d1, cp, ht, hx, hp, hl, by simp only [decRun, he, h2, if_neg hx, hl, resolve]⟩
        | none => exact .inr (.inl ⟨x, d1, ht, hx, hp, hl, by simp only [decRun, he, h2, if_neg hx, hl, resolve]⟩)
    · have h2 : countSeptet c { d1 with pos := d.pos } = none := by simp only [countSeptet, if_neg hp]
      exact .inr (.inr (.inr (.inr (.inr (.inr (.inr (.inr (.inl ⟨x, d1, ht, hp, by simp only [decRun, he, h2]⟩))))))))
  · exact .inr (.inr (.inr (.inr (.inl ⟨d1, hr, by simp only [decRun, he]⟩))))
  · exact .inr (.inr (.inr (.inr (.inr (.inr (.inl ⟨d1, w, hr, by simp only [decRun, he]⟩))))))

/-- Taking a septet keeps the cursor law (10_state R21). -/
theorem takes_cursor {c : Config} {d d1 : Dec} {x : Septet} (hp : d.pos.toNat + 1 < 2 ^ 32) (hc : cursorInv d) (h : takesSeptet c d x d1) : cursorInv d1 := by
  have hacc := (takesSeptet_bits hc.1 h).2
  obtain ⟨ha, hr, hrp, hle⟩ := hc
  refine ⟨hacc, ?_⟩
  have hpos : d1.pos.toNat = d.pos.toNat + 1 := by rw [takes_pos h]; simp; omega
  rcases h with ⟨hr7, rfl, rfl⟩ | ⟨hr7, hok, b, hb, rfl, rfl⟩
  · rw [hr7] at hr
    simp only at hpos ⊢
    simp at hr
    refine ⟨?_, ?_, hle⟩
    · simp only [hpos]; simp; omega
    · rw [hpos, hrp]; omega
  · have hlen := (List.getElem?_eq_some_iff.mp hb).1
    have h7 : d.r.toNat ≠ 7 := fun h => hr7 (BitVec.eq_of_toNat_eq (by simpa using h))
    have := d.r.isLt
    have hr1 : (d.r + 1).toNat = d.r.toNat + 1 := by simp; omega
    simp only at hpos ⊢
    refine ⟨?_, ?_, ?_⟩
    · rw [hpos, hr1]; omega
    · rw [hpos]
      have hj : d.pos.toNat % 8 ≤ 6 := by omega
      generalize hjj : d.pos.toNat % 8 = j at *
      clear hr1 hr ha hacc this
      interval_cases j <;> omega
    · exact hlen

end Sys2Proof.Laws
end

