-- ==== Sys2Proof/Laws/Encoder.lean ====
section
/-! SUPPORT. What the packing of a form, `ENC.FEED` and the flushed octet can be, said once (41_bit_engine R100, R101;
42_encoder R120). -/

namespace Sys2Proof.Laws

open Sys2Proof.Machine

/-- A form whose first septet is packed goes on with the rest (42_encoder R120). -/
theorem packAll_cons_ok {c : Config} {s : Septet} {l : List Septet} {e e1 : Enc} (h : packPut c s e = (none, e1)) :
    packAll c (s :: l) e = packAll c l e1 := by simp [packAll, h]

/-- A form ends at the first septet that raises (42_encoder R120). -/
theorem packAll_cons_fail {c : Config} {s : Septet} {l : List Septet} {e e1 : Enc} {w : Word} (h : packPut c s e = (some w, e1)) :
    packAll c (s :: l) e = (some w, e1) := by simp [packAll, h]

/-- A count of held bits that is not 0 is 1 to 7 (10_state R12). -/
theorem k_ne {k : BitVec 3} (h : k ≠ 0) : 1 ≤ k.toNat ∧ k.toNat ≤ 7 := by
  have h1 := k.isLt
  have h2 : k.toNat ≠ 0 := fun h' => h (BitVec.eq_of_toNat_eq (by simpa using h'))
  omega

/-- The first octet of a list of octets counted from 0. -/
theorem range_succ_map {α} (n : Nat) (f : Nat → α) : (List.range (n+1)).map f = f 0 :: (List.range n).map (fun j => f (j+1)) := by
  simp [List.range_succ_eq_map]

/-- Packing in numbers: with the sink accepting, the encoder after a form is `afterPacking` (41_bit_engine R100). -/
theorem packAll_arith (c : Config) (l : List Septet) : ∀ (e : Enc), e.acc.toNat < 2 ^ e.k.toNat →
    accepts c.ioFail.sink e.writes (octetCount e.k l.length) →
    packAll c l e = (none, afterPacking e l) := by
  induction l with
  | nil =>
    intro e ha _
    have hk := e.k.isLt
    have h1 : e.k.toNat / 8 = 0 := Nat.div_eq_of_lt (by omega)
    have h2 : e.k.toNat % 8 = e.k.toNat := Nat.mod_eq_of_lt (by omega)
    simp [packAll, afterPacking, completedOctets, heldValue, octetCount, h1, h2]
  | cons s l ih =>
    intro e ha hok
    rcases packPut_cases c s e ha with ⟨hk, he⟩ | ⟨hk, w, hf, he⟩ | ⟨hk, hok1, o, a, he, hsum, hlt, -⟩
    · rw [packAll_cons_ok he]
      have hk0 : e.k.toNat = 0 := by rw [hk]; rfl
      have ha0 : e.acc.toNat = 0 := by rw [hk0] at ha; omega
      have hs : s.toNat < 2 ^ 7 := s.isLt
      rw [ih]
      · simp only [afterPacking, completedOctets, octetCount, heldValue, hk0, ha0, List.length_cons, List.foldr_cons]
        simp [show 7 + 7 * l.length = 7 * (l.length + 1) by omega, Nat.mul_add]
      · simpa using hs
      · simpa [octetCount, hk0, show 7 + 7 * l.length = 7 * (l.length + 1) by omega] using hok
    · exfalso
      have := k_ne hk
      have h1 := hok 0 (by simp only [octetCount, List.length_cons]; omega)
      rw [Nat.add_zero, hf] at h1; cases h1
    · rw [packAll_cons_ok he]
      have hkk := k_ne hk
      have hk1 : (BitVec.ofNat 3 (e.k.toNat - 1)).toNat = e.k.toNat - 1 := by simp; omega
      have hq : octetCount e.k (s :: l).length = (e.k.toNat - 1 + 7 * l.length) / 8 + 1 := by
        simp only [octetCount, List.length_cons]; omega
      have hm : (e.k.toNat + 7 * (s :: l).length) % 8 = (e.k.toNat - 1 + 7 * l.length) % 8 := by
        simp only [List.length_cons]; omega
      rw [hq] at hok
      have hval : heldValue e (s :: l) = o.toNat + 256 * heldValue { e with writes := e.writes + 1, sink := e.sink ++ [o], acc := a, k := BitVec.ofNat 3 (e.k.toNat - 1) } l := by
        simp only [heldValue, List.foldr_cons, hk1]
        generalize List.foldr _ _ l = v
        have h2 : 2 ^ e.k.toNat * (s.toNat + 128 * v) = 2 ^ e.k.toNat * s.toNat + 256 * (2 ^ (e.k.toNat - 1) * v) := by
          rw [show e.k.toNat = e.k.toNat - 1 + 1 by omega, Nat.pow_succ]; simp only [Nat.add_sub_cancel]; ring
        omega
      have ho := o.isLt
      rw [ih _ (by simpa [hk1] using hlt) (by simp only [octetCount, hk1]; exact (accepts_succ hok).2)]
      have hdiv : ∀ j, heldValue e (s :: l) / 256 ^ (j+1) = heldValue { e with writes := e.writes + 1, sink := e.sink ++ [o], acc := a, k := BitVec.ofNat 3 (e.k.toNat - 1) } l / 256 ^ j := by
        intro j
        rw [hval, Nat.pow_succ', ← Nat.div_div_eq_div_mul]; congr 1; omega
      simp only [afterPacking, completedOctets, hq, hm, range_succ_map, hdiv]
      simp only [octetCount, hk1]
      simp only [Prod.mk.injEq, true_and, Enc.mk.injEq, List.append_assoc]
      refine ⟨?_, by omega⟩
      congr 1
      simp only [List.singleton_append, List.cons.injEq, and_true, Nat.pow_zero, Nat.div_one]
      apply BitVec.eq_of_toNat_eq; simp [hval]; omega

/-- All that packing a form can do: every octet accepted, or a failed sink write on the way (41_bit_engine R100,
20_memory R51). -/
theorem packAll_cases (c : Config) (l : List Septet) : ∀ (e : Enc), e.acc.toNat < 2 ^ e.k.toNat →
    (∃ e1, packAll c l e = (none, e1) ∧ e1.acc.toNat < 2 ^ e1.k.toNat ∧ e1.st = e.st ∧ e.sink <+: e1.sink ∧
       8 * e1.sink.length + e1.k.toNat = 8 * e.sink.length + e.k.toNat + 7 * l.length ∧
       octetBits e1.sink ++ lowBits e1.k.toNat e1.acc = octetBits e.sink ++ lowBits e.k.toNat e.acc ++ septetBits l) ∨
    (∃ w e1, packAll c l e = (some w, e1) ∧ e1.st = .closed ∧ e.sink <+: e1.sink ∧
       ∃ q < octetCount e.k l.length, failsAfter c.ioFail.sink e.writes q w ∧ e1.writes = e.writes + q + 1 ∧
         e1.acc = Config.freeAcc (e.writes + q) ∧ e1.k = Config.freeK (e.writes + q)) := by
  induction l with
  | nil => intro e ha; exact .inl ⟨e, rfl, ha, rfl, List.prefix_refl _, rfl, by simp⟩
  | cons s l ih =>
    intro e ha
    rcases packPut_cases c s e ha with ⟨hk, he⟩ | ⟨hk, w', hf', he⟩ | ⟨hk, hok1, o, a, he, hsum, hlt, hbits⟩
    · rw [packAll_cons_ok he]
      have hk0 : e.k.toNat = 0 := by rw [hk]; rfl
      have e7 : 7 + 7 * l.length = 7 * (l.length + 1) := by omega
      rcases ih { e with acc := s, k := 7 } (by have := s.isLt; simpa using this) with
        ⟨e1, h1, h2, h3, h4, h6, h8⟩ | ⟨w, e1, h1, h2, h3, q, hq, hf⟩
      · refine .inl ⟨e1, h1, h2, h3, h4, ?_, ?_⟩
        · rw [h6, hk0]; simp; omega
        · rw [h8, hk0]; simp [septetBits_cons]
      · exact .inr ⟨w, e1, h1, h2, h3, q, by simpa [octetCount, hk0, e7] using hq, hf⟩
    · rw [packAll_cons_fail he]
      have := k_ne hk
      exact .inr ⟨w', _, rfl, rfl, List.prefix_refl _, 0, by simp only [octetCount, List.length_cons]; omega,
        ⟨accepts_zero _ _, hf'⟩, rfl, rfl, rfl⟩
    · rw [packAll_cons_ok he]
      have hkk := k_ne hk
      have hk1 : (BitVec.ofNat 3 (e.k.toNat - 1)).toNat = e.k.toNat - 1 := by simp; omega
      rcases ih { e with writes := e.writes + 1, sink := e.sink ++ [o], acc := a, k := BitVec.ofNat 3 (e.k.toNat - 1) }
        (by simpa [hk1] using hlt) with ⟨e1, h1, h2, h3, h4, h6, h8⟩ | ⟨w, e1, h1, h2, h3, q, hq, hf, hw, ha1, hk2⟩
      · refine .inl ⟨e1, h1, h2, h3, (List.prefix_append _ _).trans h4, ?_, ?_⟩
        · rw [h6]; simp only [hk1, List.length_append, List.length_cons, List.length_nil]; omega
        · rw [h8]; simp only [hk1, octetBits_append, octetBits_singleton, septetBits_cons]
          rw [List.append_assoc (octetBits e.sink), hbits]; simp
      · have hnum : e.writes + 1 + q = e.writes + (q + 1) := by omega
        refine .inr ⟨w, e1, h1, h2, (List.prefix_append _ _).trans h3, q + 1, ?_, failsAfter_cons hok1 hf, ?_, ?_, ?_⟩
        · simp only [octetCount, hk1] at hq; simp only [octetCount, List.length_cons]; omega
        · rw [hw]; simp only; omega
        · rw [ha1, hnum]
        · rw [hk2, hnum]

/-- All that `ENC.FEED` can do (42_encoder R120). -/
theorem encFeed_cases (c : Config) (cp : Codepoint) (e : Enc) :
    (e.st = .closed ∧ encFeed c cp e = (e, encoderClosed cp)) ∨
    (e.st = .opened ∧ lutEnc c.alphabet cp = none ∧ encFeed c cp e = (e, unsupportedCharacter cp)) ∨
    (∃ l, e.st = .opened ∧ septetForm c.alphabet cp = some l ∧ 1 ≤ l.length ∧ l.length ≤ 2 ∧ (lutEnc c.alphabet cp).isSome ∧
      encFeed c cp e = ((packAll c l e).2, packResponse (packAll c l e).1)) := by
  unfold encFeed septetForm
  cases e.st with
  | closed => exact .inl ⟨rfl, rfl⟩
  | opened =>
    right
    cases h : lutEnc c.alphabet cp with
    | none => exact .inl ⟨rfl, rfl, rfl⟩
    | some p =>
      obtain ⟨b, x⟩ := p
      cases b
      · exact .inr ⟨_, rfl, rfl, by simp, by simp, rfl, rfl⟩
      · exact .inr ⟨_, rfl, rfl, by simp, by simp, rfl, rfl⟩

/-- The padding bits as a number (41_bit_engine R101). -/
theorem pad_toNat (p : BitVec 1) (k : BitVec 3) (hk : k ≠ 0) : (padBits p k).toNat = p.toNat * (256 - 2 ^ k.toNat) := by
  revert hk; revert k p; decide

/-- The flushed octet as a number: held bits below, padding above (41_bit_engine R101). -/
theorem flush_octet (p : BitVec 1) (k : BitVec 3) (a : BitVec 7) (hk : k ≠ 0) (ha : a.toNat < 2 ^ k.toNat) :
    (a.setWidth 8 ||| padBits p k : BitVec 8).toNat = a.toNat + p.toNat * (256 - 2 ^ k.toNat) := by
  revert ha hk; revert k p a; decide +kernel

/-- The flushed octet bit by bit (41_bit_engine R101). -/
theorem flush_bits (p : BitVec 1) (k : BitVec 3) (a : BitVec 7) (hk : k ≠ 0) (ha : a.toNat < 2 ^ k.toNat) :
    (∀ j, j < k.toNat → (a.setWidth 8 ||| padBits p k : BitVec 8).getLsbD j = a.getLsbD j) ∧
      ∀ j, k.toNat ≤ j → j < 8 → (a.setWidth 8 ||| padBits p k : BitVec 8).getLsbD j = decide (p = 1) := by
  have h1 : ∀ j : Fin 8, (padBits p k).getLsbD j = (decide (k.toNat ≤ j) && decide (p = 1)) := by
    clear ha; revert hk; revert k p; decide
  have hkk := k_ne hk
  constructor
  · intro j hj
    have := h1 ⟨j, by omega⟩
    simp only at this
    rw [BitVec.getLsbD_or, this, BitVec.getLsbD_setWidth]
    simp [show j < 8 by omega, show ¬ (k.toNat ≤ j) by omega]
  · intro j hj hj8
    have := h1 ⟨j, by omega⟩
    simp only at this
    rw [BitVec.getLsbD_or, this, BitVec.getLsbD_setWidth, getLsbD_of_toNat_lt ha hj]
    simp [hj]

end Sys2Proof.Laws
end

