-- ==== Sys2Proof/Laws/Step.lean ====
section
/-! SUPPORT. All that one step can do (00_scope R5), and what a command leaves alone, for every configuration. -/

namespace Sys2Proof.Laws

open Sys2Proof.Machine

/-- This hardware's meaning of a command is the block's at the values of 00_scope R4. -/
theorem exec_eq (i : Instr) (s : State) : exec i s = execIn Config.gsm7Core i s := by
  cases i <;> rfl

/-- This hardware's step is the block's at the values of 00_scope R4. -/
theorem step_eq (s : State) : step s = stepIn Config.gsm7Core s := by
  unfold step stepIn
  cases fetch s <;> simp only [exec_eq]

/-- All that one step can do: nothing, a hardware reset, an illegal word, or a command of its port. -/
theorem stepIn_cases (c : Config) (s : State) :
    (s.pending = [] ∧
      stepIn c s = .next s) ∨
    (∃ src rest, s.pending = .hardReset src :: rest ∧
      stepIn c s = .next (hardwareReset { s with pending := rest, srcIn := src })) ∨
    (∃ w rest, s.pending = .encCommand w :: rest ∧ decodeAt .enc w = none ∧
      stepIn c s = .next (answerIllegal .enc w { s with pending := rest })) ∨
    (∃ w src rest, s.pending = .decCommand w src :: rest ∧ decodeAt .dec w = none ∧
      stepIn c s = .next (answerIllegal .dec w { s with pending := rest, srcIn := src })) ∨
    (∃ w rest i, s.pending = .encCommand w :: rest ∧ decodeAt .enc w = some i ∧ portOf i = .enc ∧
      stepIn c s = execIn c i { s with pending := rest }) ∨
    (∃ w src rest i, s.pending = .decCommand w src :: rest ∧ decodeAt .dec w = some i ∧ portOf i = .dec ∧
      stepIn c s = execIn c i { s with pending := rest, srcIn := src }) := by
  have hport : ∀ {p w i}, decodeAt p w = some i → portOf i = p := by
    intro p w i h
    unfold decodeAt at h
    split at h
    · cases h
    · split at h
      · cases h; assumption
      · cases h
  rcases hp : s.pending with _ | ⟨ev, rest⟩
  · exact .inl ⟨rfl, by simp [stepIn, fetch, hp]⟩
  · right
    cases ev with
    | hardReset src => exact .inl ⟨src, rest, rfl, by simp only [stepIn, fetch, hp]⟩
    | encCommand w =>
      cases hd : decodeAt .enc w with
      | none => exact .inr (.inl ⟨w, rest, rfl, hd, by simp only [stepIn, fetch, hp, fetchWord, hd]⟩)
      | some i => exact .inr (.inr (.inr (.inl ⟨w, rest, i, rfl, hd, hport hd, by simp only [stepIn, fetch, hp, fetchWord, hd]⟩)))
    | decCommand w src =>
      cases hd : decodeAt .dec w with
      | none => exact .inr (.inr (.inl ⟨w, src, rest, rfl, hd, by simp only [stepIn, fetch, hp, fetchWord, hd]⟩))
      | some i => exact .inr (.inr (.inr (.inr ⟨w, src, rest, i, rfl, hd, hport hd, by simp only [stepIn, fetch, hp, fetchWord, hd]⟩)))

/-- No command touches the host's event list or its source input (30_encoding R64; log 1, log 3). -/
theorem execIn_pending {c : Config} {i : Instr} {s t : State} (h : execIn c i s = .next t) : t.pending = s.pending ∧ t.srcIn = s.srcIn := by
  cases i with
  | encFeed cp => cases h; exact ⟨rfl, rfl⟩
  | encFinish => cases h; exact ⟨rfl, rfl⟩
  | encRst => cases h; exact ⟨rfl, rfl⟩
  | decRst => cases h; exact ⟨rfl, rfl⟩
  | decNext =>
    simp only [execIn, execDecNextIn] at h
    cases hd : decNext c s.dec with
    | error r => rw [hd] at h; cases h
    | ok p => rw [hd] at h; cases h; exact ⟨rfl, rfl⟩

/-- No command of the decoder touches the encoder or its port (10_state R28). -/
theorem dec_enc_frame {c : Config} {i : Instr} {s t : State} (hp : portOf i = .dec) (h : execIn c i s = .next t) : t.enc = s.enc ∧ t.encRsp = s.encRsp := by
  cases i with
  | encFeed cp => simp [portOf] at hp
  | encFinish => simp [portOf] at hp
  | encRst => simp [portOf] at hp
  | decRst => cases h; exact ⟨rfl, rfl⟩
  | decNext =>
    simp only [execIn, execDecNextIn] at h
    cases hd : decNext c s.dec with
    | error r => rw [hd] at h; cases h
    | ok p => rw [hd] at h; cases h; exact ⟨rfl, rfl⟩

end Sys2Proof.Laws
end

