-- ==== Sys2Proof/Laws/Memory.lean ====
section
/-! SUPPORT. Every operation that touches a data space keeps `Memory.wf` (10_state R22; log 10). -/

namespace Sys2Proof.Laws

open Sys2Proof.Machine

/-- The reset state's read pointer stands within its source (10_state R29). -/
theorem reset_memory_wf : Memory.wf State.reset := by decide

/-- `SrcRead` moves the read pointer past an octet that is there, and no further (20_memory R41). -/
theorem srcRead_wf {c : Config} {d : Dec} (h : d.rp ≤ d.src.length) :
    (srcRead c d).2.rp ≤ (srcRead c d).2.src.length ∧ (srcRead c d).2.src = d.src := by
  rcases srcRead_cases c d with ⟨w, _, he⟩ | ⟨_, _, he⟩ | ⟨b, _, hs, he⟩ <;> rw [he]
  · exact ⟨h, rfl⟩
  · exact ⟨h, rfl⟩
  · exact ⟨(List.getElem?_eq_some_iff.mp hs).1, rfl⟩

/-- `UnpackGet` keeps the read pointer within the source (41_bit_engine R102). -/
theorem unpackGet_wf {c : Config} {d : Dec} (h : d.rp ≤ d.src.length) :
    (unpackGet c d).2.rp ≤ (unpackGet c d).2.src.length := by
  unfold unpackGet
  split
  · exact h
  · have hs := (srcRead_wf (c := c) h).1
    split <;> simp_all

/-- `DEC.NEXT` keeps the read pointer within the source (43_decoder R140). -/
theorem decNext_wf {c : Config} {d d1 : Dec} {r : Response} (h : d.rp ≤ d.src.length)
    (hn : decNext c d = .ok (d1, r)) : d1.rp ≤ d1.src.length := by
  have hcount : ∀ {a b : Dec}, countSeptet c a = some b → b.rp = a.rp ∧ b.src = a.src := by
    intro a b hb
    unfold countSeptet at hb
    split at hb
    · cases hb; exact ⟨rfl, rfl⟩
    · cases hb
  have hres : ∀ (o : Option Codepoint) (x : Septet) (p : BitVec 32) (a : Dec),
      (resolve o x p a).1.rp = a.rp ∧ (resolve o x p a).1.src = a.src := by
    intro o x p a; cases o <;> exact ⟨rfl, rfl⟩
  have hu := unpackGet_wf (c := c) h
  unfold decNext at hn
  split at hn
  · cases hn; exact h
  · cases hn; exact h
  · unfold decRun at hn
    split at hn
    · rename_i e1 he; rw [he] at hu; cases hn; exact hu
    · rename_i w e1 he; rw [he] at hu; cases hn; exact hu
    · rename_i x e1 he
      rw [he] at hu
      split at hn
      · cases hn
      · rename_i e2 h2
        have hw : e2.rp ≤ e2.src.length := by rw [(hcount h2).1, (hcount h2).2]; exact hu
        split at hn
        · have hv := unpackGet_wf (c := c) hw
          unfold decEscaped at hn
          split at hn
          · rename_i f1 hf; rw [hf] at hv; cases hn; exact hv
          · rename_i w f1 hf; rw [hf] at hv; cases hn; exact hv
          · rename_i y f1 hf
            rw [hf] at hv
            split at hn
            · cases hn
            · rename_i f2 h3
              have hr := hres (lutDecX c.alphabet y) y (d.pos + 1) f2
              have h1 : (resolve (lutDecX c.alphabet y) y (d.pos + 1) f2).1 = d1 :=
                congrArg Prod.fst (Except.ok.inj hn)
              rw [← h1, hr.1, hr.2, (hcount h3).1, (hcount h3).2]; exact hv
        · have hr := hres (lutDecB c.alphabet x) x d.pos e2
          have h1 : (resolve (lutDecB c.alphabet x) x d.pos e2).1 = d1 :=
            congrArg Prod.fst (Except.ok.inj hn)
          rw [← h1, hr.1, hr.2]; exact hw

/-- Binding a source puts the read pointer at its start (43_decoder R141). -/
theorem freshDec_wf (src : List Octet) (d : Dec) :
    (freshDec src d).rp ≤ (freshDec src d).src.length := Nat.zero_le _

/-- Every step of a block keeps `Memory.wf`. -/
theorem stepIn_memory_wf {c : Config} {s t : State} (h : Memory.wf s) (hs : stepIn c s = .next t) :
    Memory.wf t := by
  have hex : ∀ {i : Instr} {a : State}, Memory.wf a → execIn c i a = .next t → Memory.wf t := by
    intro i a ha hi
    cases i with
    | encFeed cp => cases hi; exact ha
    | encFinish => cases hi; exact ha
    | encRst => cases hi; exact ha
    | decRst => cases hi; exact freshDec_wf _ _
    | decNext =>
      simp only [execIn, execDecNextIn] at hi
      split at hi
      · rename_i p hd; cases hi; exact decNext_wf (r := p.2) ha hd
      · cases hi
  rcases stepIn_cases c s with ⟨_, h'⟩ | ⟨src, rest, _, h'⟩ | ⟨w, rest, _, _, h'⟩ | ⟨w, src, rest, _, _, h'⟩ |
    ⟨w, rest, i, _, _, _, h'⟩ | ⟨w, src, rest, i, _, _, _, h'⟩ <;> rw [h'] at hs
  · cases hs; exact h
  · cases hs; exact freshDec_wf _ _
  · cases hs; exact h
  · cases hs; exact h
  · exact hex (a := { s with pending := rest }) h hs
  · exact hex (a := { s with pending := rest, srcIn := src }) h hs

/-- Every step of this hardware keeps `Memory.wf`. -/
theorem step_memory_wf {s t : State} (h : Memory.wf s) (hs : step s = .next t) : Memory.wf t :=
  stepIn_memory_wf h ((step_eq s).symm.trans hs)

end Sys2Proof.Laws
end

