-- ==== Sys2Proof/Laws/PerInstr.lean ====
section
/-! SUPPORT. Statements made for every instruction, one lemma per constructor. -/

namespace Sys2Proof.Laws

/-- The word of an instruction under its row's mask is its row's match (30_encoding R66): the encoder and the
opcode map's two columns are written out apart. -/
def EncodingRow.Statement (i : Instr) : Prop := encode i &&& rowMask i = rowMatch i

theorem EncodingRow.encFeed (cp : Codepoint) : EncodingRow.Statement (.encFeed cp) := by
  show (packFields 0x1 0 cp) &&& 0xFFE00000 = (0x10000000 : Word)
  apply BitVec.eq_of_getLsbD_eq
  intro j hj
  by_cases h : j < 21
  · simp only [BitVec.getLsbD_and, packFields]
    have h1 : (0xFFE00000 : Word).getLsbD j = false := by interval_cases j <;> decide
    have h2 : (0x10000000 : Word).getLsbD j = false := by interval_cases j <;> decide
    rw [h1, h2, Bool.and_false]
  · simp only [BitVec.getLsbD_and, packFields, BitVec.getLsbD_append, h, if_false]
    interval_cases j <;> first | omega | decide

theorem EncodingRow.encFinish : EncodingRow.Statement .encFinish := by unfold EncodingRow.Statement; decide

theorem EncodingRow.encRst : EncodingRow.Statement .encRst := by unfold EncodingRow.Statement; decide

theorem EncodingRow.decNext : EncodingRow.Statement .decNext := by unfold EncodingRow.Statement; decide

theorem EncodingRow.decRst : EncodingRow.Statement .decRst := by unfold EncodingRow.Statement; decide

end Sys2Proof.Laws
end

