-- ==== Sys2Proof/Laws/Stream.lean ====
section
/-! SUPPORT. The bits a decoder has left, and what unpacking and `DEC.ALL` make of them (20_memory R44, 41_bit_engine R105,
30_encoding R72). -/

namespace Sys2Proof.Laws

open Sys2Proof.Machine

/-- The bits of the source not yet handed out: the held bits, then the octets not yet read (20_memory R44). -/
def restBits (d : Dec) : List Bool := lowBits d.r.toNat d.acc ++ octetBits (d.src.drop d.rp)

/-- A septet taken is the first seven of the bits left. -/
theorem rem_takes {c : Config} {d d1 : Dec} {x : Septet} (ha : d.acc.toNat < 2 ^ d.r.toNat) (h : takesSeptet c d x d1) :
    restBits d = lowBits 7 x ++ restBits d1 ∧ d1.acc.toNat < 2 ^ d1.r.toNat := takesSeptet_bits ha h

/-- Taking a septet leaves the status alone. -/
theorem takes_st {c : Config} {d d1 : Dec} {x : Septet} (h : takesSeptet c d x d1) : d1.st = d.st := by
  rcases h with ⟨_, _, rfl⟩ | ⟨_, _, b, _, _, rfl⟩ <;> rfl

/-- With no failures: a septet while seven bits are left, else the source is used up (41_bit_engine R102). -/
theorem unpack_never {c : Config} {d : Dec} (hio : c.ioFail = .never) (ha : d.acc.toNat < 2 ^ d.r.toNat) :
    (∃ x d1, takesSeptet c d x d1 ∧ unpackGet c d = (.septet x, { d1 with pos := d.pos })) ∨
    (unpackGet c d = (.exhausted, { d with reads := d.reads + 1 }) ∧ restBits d = lowBits d.r.toNat d.acc ∧ (restBits d).length < 7) := by
  rcases unpackGet_cases c d ha with h | ⟨d1, hr, he⟩ | ⟨w, d1, hr, he⟩
  · exact .inl h
  · right
    obtain ⟨hr7, hok, hn, rfl⟩ := hr
    have h7 : d.r.toNat ≠ 7 := fun h => hr7 (BitVec.eq_of_toNat_eq (by simpa using h))
    have := d.r.isLt
    have hd : d.src.drop d.rp = [] := by simpa using hn
    have hrem : restBits d = lowBits d.r.toNat d.acc := by simp [restBits, hd]
    exact ⟨he, hrem, by rw [hrem]; simp; omega⟩
  · obtain ⟨_, hf, _⟩ := hr; rw [hio] at hf; simp at hf

/-- Two bit lists that start with a septet each. -/
theorem cut7 {x : Septet} {a : List Bool} {s : Septet} {b : List Bool} (h : lowBits 7 x ++ a = lowBits 7 s ++ b) : x = s ∧ a = b := by
  have := List.append_inj h (by simp)
  exact ⟨lowBits_inj this.1, this.2⟩

/-- The bits left are whole septets and fewer than seven bits more. -/
theorem rem_septets {c : Config} (hio : c.ioFail = .never) :
    ∀ (m : Nat) (d : Dec), d.acc.toNat < 2 ^ d.r.toNat → (restBits d).length ≤ m →
    ∃ S tail, restBits d = septetBits S ++ tail ∧ tail.length < 7 := by
  intro m
  induction m using Nat.strongRecOn with
  | _ m ih =>
    intro d ha hm
    rcases unpack_never hio ha with ⟨x, d1, ht, he⟩ | ⟨he, hr, hl⟩
    · have h := rem_takes ha ht
      have hlen : (restBits d).length = 7 + (restBits d1).length := by rw [h.1]; simp
      obtain ⟨S, tail, h1, h2⟩ := ih (m - 7) (by omega) d1 h.2 (by omega)
      exact ⟨x :: S, tail, by rw [h.1, h1, septetBits_cons]; simp, h2⟩
    · exact ⟨[], restBits d, rfl, hl⟩

/-- Unpacking everything that is left (41_bit_engine R105). -/
theorem unpackAll_spec {c : Config} (hio : c.ioFail = .never) (S : List Septet) :
    ∀ (n : Nat) (d : Dec) (tail : List Bool), d.acc.toNat < 2 ^ d.r.toNat →
    restBits d = septetBits S ++ tail → tail.length < 7 → S.length < n →
    (unpackAll c n d).1 = S ∧ (unpackGet c (unpackAll c n d).2).1 = .exhausted ∧
    lowBits (unpackAll c n d).2.r.toNat (unpackAll c n d).2.acc = tail := by
  induction S with
  | nil =>
    intro n d tail ha hrem htail hn
    obtain ⟨m, rfl⟩ : ∃ m, n = m + 1 := ⟨n - 1, by simp at hn; omega⟩
    rcases unpack_never hio ha with ⟨x, d1, ht, he⟩ | ⟨he, hr, hl⟩
    · have h := rem_takes ha ht
      rw [h.1] at hrem
      have := congrArg List.length hrem
      simp at this; omega
    · simp only [unpackAll, he]
      refine ⟨trivial, ?_, ?_⟩
      · rcases unpack_never (c := c) (d := { d with reads := d.reads + 1 }) hio ha with ⟨x, d1, ht, -⟩ | ⟨he2, -, -⟩
        · have h3 : restBits { d with reads := d.reads + 1 } = restBits d := rfl
          have h := (rem_takes (d := { d with reads := d.reads + 1 }) ha ht).1
          rw [h3] at h; rw [h] at hl; simp at hl
        · rw [he2]
      · rw [← hr, hrem]; rfl
  | cons s S ih =>
    intro n d tail ha hrem htail hn
    obtain ⟨m, rfl⟩ : ∃ m, n = m + 1 := ⟨n - 1, by simp at hn; omega⟩
    rcases unpack_never hio ha with ⟨x, d1, ht, he⟩ | ⟨he, hr, hl⟩
    · have h := rem_takes ha ht
      rw [h.1, septetBits_cons, List.append_assoc] at hrem
      obtain ⟨rfl, hrest⟩ := cut7 hrem
      have := ih m { d1 with pos := d.pos } tail h.2 hrest htail (by simp at hn; omega)
      simp only [unpackAll, he]
      exact ⟨by rw [this.1], this.2.1, this.2.2⟩
    · rw [hrem] at hl; simp [septetBits_cons] at hl

/-- Packing from a fresh encoder on a platform that never fails (41_bit_engine R105). -/
theorem packAll_fresh {c : Config} (hio : c.ioFail = .never) (l : List Septet) (e : Enc) (h : isFreshEnc e) :
    ∃ e1, packAll c l e = (none, e1) ∧
      octetBits e1.sink ++ lowBits e1.k.toNat e1.acc = septetBits l ∧ e1.acc.toNat < 2 ^ e1.k.toNat ∧
      8 * e1.sink.length + e1.k.toNat = 7 * l.length ∧ e1.st = .opened := by
  obtain ⟨h1, h2, h3, h4⟩ := h
  rcases packAll_cases c l e (by rw [h1, h2]; decide) with ⟨e1, g1, g2, g3, g4, g6, g8⟩ | ⟨w, e1, g1, g2, g3, q, hq, hf, -⟩
  · refine ⟨e1, g1, ?_, g2, ?_, g3.trans h3⟩
    · rw [g8, h2, h4]; simp
    · rw [g6, h2, h4]; simp
  · have := hf.2; rw [hio] at this; simp at this

/-- Flushing adds the held bits and the padding bits (41_bit_engine R101). -/
theorem flush_sink {c : Config} (hio : c.ioFail = .never) (e : Enc) (ha : e.acc.toNat < 2 ^ e.k.toNat) :
    ∃ e1 p, packFlush c e = (none, e1) ∧ octetBits e1.sink = octetBits e.sink ++ lowBits e.k.toNat e.acc ++ List.replicate p (decide (c.padFill = 1)) ∧
      p = (8 - e.k.toNat) % 8 ∧ e1.st = e.st := by
  rcases packFlush_cases c e with ⟨hk, he⟩ | ⟨hk, w', hf', he⟩ | ⟨hk, hok', he⟩
  · exact ⟨e, 0, he, by simp [hk], by simp [hk], rfl⟩
  · rw [hio] at hf'; simp at hf'
  · refine ⟨_, 8 - e.k.toNat, he, ?_, ?_, rfl⟩
    · simp only [octetBits_append, octetBits_singleton, List.append_assoc]
      congr 1
      have hb := flush_bits c.padFill e.k e.acc hk ha
      have hkk := k_ne hk
      apply List.ext_getElem?
      intro j
      simp only [List.getElem?_append, lowBits_length, lowBits_getElem?, List.getElem?_replicate]
      by_cases h1 : j < e.k.toNat
      · simp only [h1, show j < 8 by omega, if_true]; rw [hb.1 j h1]
      · by_cases h2 : j < 8
        · simp only [h1, h2, if_true, if_false, show j - e.k.toNat < 8 - e.k.toNat by omega]; rw [hb.2 j (by omega) h2]
        · simp only [h1, h2, if_false, show ¬ (j - e.k.toNat < 8 - e.k.toNat) by omega]
    · have := k_ne hk; omega

/-- The septet of padding bits. -/
theorem padSeptet_bits (c : Config) : lowBits 7 (padSeptet c) = List.replicate 7 (decide (c.padFill = 1)) := by
  unfold padSeptet; split <;> simp_all <;> decide

/-- A fresh decoder has all bits of its source left. -/
theorem fresh_rem {src : List Octet} {d : Dec} (h : isFreshDec src d) : restBits d = octetBits src ∧ d.acc.toNat < 2 ^ d.r.toNat := by
  obtain ⟨h1, h2, h3, h4, h5, h6⟩ := h
  refine ⟨?_, by rw [h1, h2]; decide⟩
  simp [restBits, h1, h2, h5, h6]

/-- Seven padding bits are one more septet; fewer are none. -/
theorem pad_split (c : Config) (p : Nat) (n : Nat) (hp : p = (8 - 7 * n % 8) % 8) :
    ∃ q, List.replicate p (decide (c.padFill = 1)) = septetBits (if n % 8 = 7 then [padSeptet c] else []) ++ List.replicate q (decide (c.padFill = 1)) ∧ q < 7 := by
  by_cases h : n % 8 = 7
  · refine ⟨0, ?_, by omega⟩
    rw [if_pos h, septetBits_singleton, padSeptet_bits, show p = 7 by omega]; simp
  · exact ⟨p, by rw [if_neg h]; simp, by omega⟩

/-- What `DEC.ALL` gives on the septets `S` at position `p`, with `t` collected so far (30_encoding R72). -/
def expectedAll (c : Config) : List Septet → BitVec 32 → List Codepoint → Except Refusal (List Codepoint × Response)
  | [], _, t => .ok (t, okEnd)
  | s :: rest, p, t =>
    if ¬ p.toNat + 1 < 2 ^ c.posW then .error .positionOverflow
    else if s = escape then
      match rest with
      | [] => .ok (t, raise .danglingEscape (septetVal escape) p)
      | x :: rest' =>
        if ¬ (p + 1).toNat + 1 < 2 ^ c.posW then .error .positionOverflow
        else match lutDecX c.alphabet x with
        | some cp => expectedAll c rest' (p + 1 + 1) (t ++ [cp])
        | none => .ok (t, raise .invalidSeptet (septetVal x) (p + 1))
    else match lutDecB c.alphabet s with
      | some cp => expectedAll c rest (p + 1) (t ++ [cp])
      | none => .ok (t, raise .invalidSeptet (septetVal s) p)

/-- The outcome of `DEC.ALL` is the one expected. -/
def agrees : Except Refusal (List Codepoint × Response) → DecAllResult → Prop
  | .ok (t, r), .stopped t' r' _ => t = t' ∧ r = r'
  | .error r, .refused r' => r = r'
  | _, _ => False

/-- `DEC.ALL` on a platform that never fails gives what its septets say (30_encoding R72, 43_decoder R140). -/
theorem decAll_expect {c : Config} (hio : c.ioFail = .never) :
    ∀ (m : Nat) (S : List Septet) (n : Nat) (t : List Codepoint) (d : Dec) (tail : List Bool),
    S.length ≤ m → S.length < n →
    d.st = .run → d.acc.toNat < 2 ^ d.r.toNat → restBits d = septetBits S ++ tail → tail.length < 7 →
    agrees (expectedAll c S d.pos t) (decAllFuel c n t d) := by
  intro m
  induction m with
  | zero =>
    intro S n t d tail hm hn hst ha hrem htail
    obtain ⟨n, rfl⟩ : ∃ k, n = k + 1 := ⟨n - 1, by omega⟩
    obtain rfl : S = [] := by simpa using hm
    rcases unpack_never hio ha with ⟨x, d1, ht, he⟩ | ⟨he, hr, hl⟩
    · have h := rem_takes ha ht
      rw [h.1] at hrem
      have := congrArg List.length hrem
      simp at this; omega
    · simp only [decAllFuel, decNext, hst, decRun, he, expectedAll]
      simp [okEnd, agrees]
  | succ m ih =>
    intro S n t d tail hm hn hst ha hrem htail
    obtain ⟨n, rfl⟩ : ∃ k, n = k + 1 := ⟨n - 1, by omega⟩
    rcases unpack_never hio ha with ⟨x, d1, ht, he⟩ | ⟨he, hr, hl⟩
    · have h := rem_takes ha ht
      cases S with
      | nil =>
        rw [h.1] at hrem
        have := congrArg List.length hrem
        simp at this; omega
      | cons s S =>
        rw [h.1, septetBits_cons, List.append_assoc] at hrem
        obtain ⟨rfl, hrest⟩ := cut7 hrem
        by_cases hp : d.pos.toNat + 1 < 2 ^ c.posW
        · have h2 : countSeptet c { d1 with pos := d.pos } = some d1 := count_ok (takes_pos ht) hp
          have hst1 := takes_st ht
          by_cases hx : x = escape
          · subst hx
            rcases unpack_never hio h.2 with ⟨y, d2, ht2, he2⟩ | ⟨he2, hr2, hl2⟩
            · have hh := rem_takes h.2 ht2
              cases S with
              | nil =>
                rw [hh.1] at hrest
                have := congrArg List.length hrest
                simp at this; omega
              | cons s S =>
                rw [hh.1, septetBits_cons, List.append_assoc] at hrest
                obtain ⟨rfl, hrest2⟩ := cut7 hrest
                by_cases hp2 : (d.pos + 1).toNat + 1 < 2 ^ c.posW
                · have h4 : countSeptet c { d2 with pos := d1.pos } = some d2 := count_ok (takes_pos ht2) (by rw [takes_pos ht]; exact hp2)
                  have hst2 := takes_st ht2
                  cases hl : lutDecX c.alphabet y with
                  | some cp =>
                    have := ih S n (t ++ [cp]) d2 tail (by simp at hm; omega) (by simp at hn; omega) (hst2.trans (hst1.trans hst)) hh.2 hrest2 htail
                    rw [takes_pos ht2, takes_pos ht] at this
                    have he1 : expectedAll c (escape :: y :: S) d.pos t = expectedAll c S (d.pos + 1 + 1) (t ++ [cp]) := by
                      conv => lhs; unfold expectedAll
                      simp only [hp, hp2, hl, not_true_eq_false, if_false, if_true]
                    rw [he1]
                    simp only [decAllFuel, decNext, hst, decRun, he, h2, if_true, decEscaped, he2, h4, hl, resolve]
                    simpa [okChar] using this
                  | none =>
                    have he1 : expectedAll c (escape :: y :: S) d.pos t = .ok (t, raise .invalidSeptet (septetVal y) (d.pos + 1)) := by
                      conv => lhs; unfold expectedAll
                      simp only [hp, hp2, hl, not_true_eq_false, if_false, if_true]
                    rw [he1]
                    simp only [decAllFuel, decNext, hst, decRun, he, h2, if_true, decEscaped, he2, h4, hl, resolve]
                    simp [raiseDec, raise, agrees]
                · have h4 : countSeptet c { d2 with pos := d1.pos } = none := by simp only [countSeptet, takes_pos ht, if_neg hp2]
                  have he1 : expectedAll c (escape :: y :: S) d.pos t = .error .positionOverflow := by
                      conv => lhs; unfold expectedAll
                      simp only [hp, hp2, not_true_eq_false, not_false_eq_true, if_false, if_true]
                  rw [he1]
                  simp only [decAllFuel, decNext, hst, decRun, he, h2, if_true, decEscaped, he2, h4]
                  simp [agrees]
            · have hS : S = [] := by
                cases S with
                | nil => rfl
                | cons s S => rw [hrest] at hl2; simp [septetBits_cons] at hl2
              subst hS
              have he1 : expectedAll c [escape] d.pos t = .ok (t, raise .danglingEscape (septetVal escape) d.pos) := by
                unfold expectedAll
                simp only [hp, not_true_eq_false, if_false, if_true]
              rw [he1]
              simp only [decAllFuel, decNext, hst, decRun, he, h2, if_true, decEscaped, he2]
              simp [raiseDec, raise, agrees]
          · cases hl : lutDecB c.alphabet x with
            | some cp =>
              have := ih S n (t ++ [cp]) d1 tail (by simp at hm; omega) (by simp at hn; omega) (hst1.trans hst) h.2 hrest htail
              rw [takes_pos ht] at this
              have he1 : expectedAll c (x :: S) d.pos t = expectedAll c S (d.pos + 1) (t ++ [cp]) := by
                conv => lhs; unfold expectedAll
                simp only [hp, hx, hl, not_true_eq_false, if_false]
              rw [he1]
              simp only [decAllFuel, decNext, hst, decRun, he, h2, if_neg hx, hl, resolve]
              simpa [okChar] using this
            | none =>
              have he1 : expectedAll c (x :: S) d.pos t = .ok (t, raise .invalidSeptet (septetVal x) d.pos) := by
                conv => lhs; unfold expectedAll
                simp only [hp, hx, hl, not_true_eq_false, if_false]
              rw [he1]
              simp only [decAllFuel, decNext, hst, decRun, he, h2, if_neg hx, hl, resolve]
              simp [raiseDec, raise, agrees]
        · have h4 : countSeptet c { d1 with pos := d.pos } = none := by simp only [countSeptet, if_neg hp]
          have he1 : expectedAll c (x :: S) d.pos t = .error .positionOverflow := by
              conv => lhs; unfold expectedAll
              simp only [hp, not_false_eq_true, if_true]
          rw [he1]
          simp only [decAllFuel, decNext, hst, decRun, he, h4]
          simp [agrees]
    · have hS : S = [] := by
        cases S with
        | nil => rfl
        | cons s S => rw [hrem] at hl; simp [septetBits_cons] at hl
      subst hS
      simp only [decAllFuel, decNext, hst, decRun, he, expectedAll]
      simp [okEnd, agrees]

/-- The bound of `DEC.ALL` on a fresh decoder. -/
theorem fresh_bound {src : List Octet} {d : Dec} (h : isFreshDec src d) : decAllBound d = 8 * src.length / 7 + 1 := by
  obtain ⟨h1, h2, h3, h4, h5, h6⟩ := h
  simp [decAllBound, h2, h5, h6]

end Sys2Proof.Laws
end

