-- ==== Sys2Proof/Tests/Slice0.lean ====
section
/-! SUPPORT. Tests on fixed values, taken from spec/95_test_vectors.md, and one witness per statement that has
hypotheses. -/

namespace Sys2Proof.Tests

open Sys2Proof.Machine

/-! ### Helpers -/

/-- The next state, where there is one. -/
def after (o : Host.Outcome State Fault Refusal) : Option State :=
  match o with
  | .next s => some s
  | .fault _ => none
  | .refused _ => none

/-- An encoder that has made one transfer for each octet of its sink. -/
def encAt (acc : BitVec 7) (k : BitVec 3) (st : EncStatus) (sink : List Octet) : Enc :=
  { acc := acc, k := k, st := st, sink := sink, writes := sink.length }

/-- A decoder in `RUN` that has made one transfer for each octet it has read. -/
def decAt (acc : BitVec 7) (r : BitVec 3) (pos : BitVec 32) (src : List Octet) (rp : Nat) : Dec :=
  { Dec.reset with acc := acc, r := r, pos := pos, src := src, rp := rp, reads := rp }

/-- The reset machine with this encoder. -/
def withEnc (e : Enc) : State := { State.reset with enc := e }

/-- The reset machine with this decoder. -/
def withDec (d : Dec) : State := { State.reset with dec := d }

/-- The reset machine to which the host sends these events. -/
def sends (l : List HostEvent) : State := { State.reset with pending := l }

/-- V9: the default table without `BASIC[0x00]`. -/
def alphabetT : Alphabet := { defaultAlphabet with basic := defaultBasic.filter (fun p => p.1 != 0) }

/-- The default table without the septet that padding bits make, `BASIC[0x7F]`. -/
def alphabetP : Alphabet := { defaultAlphabet with basic := defaultBasic.filter (fun p => p.1 != 0x7F) }

/-- This hardware with another table. -/
def withAlphabet (a : Alphabet) : Config := { Config.gsm7Core with alphabet := a }

/-- This hardware on a platform that fails these transfers of the two ports. -/
def failing (sink source : List (Nat × Word)) : Config :=
  { Config.gsm7Core with ioFail := { sink := sink, source := source } }

/-! ### Well-formedness: each check refuses an ill-formed term -/

theorem test_default_wellFormed : Config.gsm7Core.wellFormed = true := by decide +kernel

theorem test_default_config_builds : Config.build Config.gsm7Core = some Config.gsm7Core := by
  simp [Config.build, test_default_wellFormed]

theorem test_alphabetT_wellFormed : alphabetT.wellFormed = true := by decide +kernel

theorem test_every_instruction_wellFormed : Instr.wellFormed (.encFeed 0x1FFFFF) = true := by decide

/-- A codepoint of the surrogate range is no scalar value (10_state R10). -/
theorem test_surrogate_refused : isScalarValue 0xD800 = false ∧ isScalarValue 0xDFFF = false ∧
    isScalarValue 0x110000 = false ∧ isScalarValue 0x10FFFF = true ∧ isScalarValue 0xE000 = true := by decide

/-- A table entry that is no scalar value is refused (40_alphabet R80). -/
theorem test_wf_scalar : rowsAreFunction [(0x01, 0xD800)] = false := by decide

/-- A septet named twice is refused (40_alphabet R80). -/
theorem test_wf_function : rowsAreFunction [(0x01, 0x41), (0x01, 0x42)] = false := by decide

/-- R83 (a). -/
theorem test_wf_escape : Alphabet.escapeReserved { basic := [(0x1B, 0x41)], ext := [] } = false := by decide

/-- R83 (b), (c). -/
theorem test_wf_injective : rowsInjective [(0x01, 0x41), (0x02, 0x41)] = false := by decide

/-- R83 (d). -/
theorem test_wf_disjoint : Alphabet.disjoint { basic := [(0x01, 0x41)], ext := [(0x02, 0x41)] } = false := by
  decide

/-- R83 (f). -/
theorem test_wf_fixture : Alphabet.fixture { basic := [(0x54, 0x54)], ext := [] } = false := by decide

/-- R83 (e): an extension table with all 128 entries is refused. -/
theorem test_wf_extension_sparse : Alphabet.wellFormed { defaultAlphabet with
    ext := (List.range 128).map (fun n => (BitVec.ofNat 7 n, BitVec.ofNat 21 (0x4E00 + n))) } = false := by
  simp [Alphabet.wellFormed]

/-- An ill-formed table, a position width of 0 or 33, and a second encoder or decoder are refused when the
block is built. -/
theorem test_wf_build_refuses :
    Config.build (withAlphabet { basic := [], ext := [] }) = none ∧
    Config.build { Config.gsm7Core with posW := 0 } = none ∧
    Config.build { Config.gsm7Core with posW := 33 } = none ∧
    Config.build { Config.gsm7Core with nEnc := 2 } = none ∧
    Config.build { Config.gsm7Core with nDec := 0 } = none :=
  ⟨by decide, by simp [Config.build, Config.wellFormed], by simp [Config.build, Config.wellFormed],
   by simp [Config.build, Config.wellFormed], by simp [Config.build, Config.wellFormed]⟩

/-! ### Decoding: words written out bit by bit from 30_encoding R65 and R66 -/

/-- OP 0001, Z 0000000, ARG 0 0000 0000 0000 0100 1000. -/
theorem test_decode_encFeed : decode 0b00010000000000000000000001001000 = .ok (.encFeed 0x48) := by decide

/-- Every operand bit at 1. -/
theorem test_decode_encFeed_all_ones : decode 0b00010000000111111111111111111111 = .ok (.encFeed 0x1FFFFF) := by
  decide

theorem test_decode_encFinish : decode 0b00100000000000000000000000000000 = .ok .encFinish := by decide

theorem test_decode_encRst : decode 0b00110000000000000000000000000000 = .ok .encRst := by decide

theorem test_decode_decNext : decode 0b10000000000000000000000000000000 = .ok .decNext := by decide

theorem test_decode_decRst : decode 0b10010000000000000000000000000000 = .ok .decRst := by decide

/-- 95 section 2.9, the illegal words. -/
theorem test_decode_illegal :
    decode 0x18000048 = .error (.nonzeroZ 0x40) ∧ decode 0x90000001 = .error (.nonzeroArg 1) ∧
    decode 0x40000000 = .error (.reservedOp 4) ∧ decode 0x70000000 = .error (.reservedOp 7) ∧
    decode 0xA0000000 = .error (.reservedOp 0xA) ∧ decode 0xF0000000 = .error (.reservedOp 0xF) ∧
    decode 0xFFFFFFFF = .error (.nonzeroZ 0x7F) := by decide

theorem test_decode_table_word : decodeTableWord 32 0x101FFFFF = some (.encFeed 0x1FFFFF) ∧
    decodeTableWord 32 0x90000000 = some .decRst ∧ decodeTableWord 32 0x20000001 = none := by decide

/-- The word of every row runs as the first command after reset (log 1). -/
theorem test_first_command_after_reset :
    (after (step (State.reset.withFetchWord 32 0x10000048))).map (fun t => t.encRsp) = some [okNone] ∧
    (after (step (State.reset.withFetchWord 32 0x20000000))).map (fun t => t.encRsp) = some [okNone] ∧
    (after (step (State.reset.withFetchWord 32 0x30000000))).map (fun t => t.encRsp) = some [okNone] ∧
    (after (step (State.reset.withFetchWord 32 0x80000000))).map (fun t => t.decRsp) = some [okEnd] ∧
    (after (step (State.reset.withFetchWord 32 0x90000000))).map (fun t => t.decRsp) = some [okNone] := by
  decide +kernel

/-! ### The engine and the lookups (95 sections 2.1 to 2.4) -/

/-- 95 section 2.2: `PackPut(0x55)` at `ENC.K` = 0, 1, 6, 7, and of 0x7F on seven held ones. -/
theorem test_packPut :
    packPut Config.gsm7Core 0x55 (encAt 0 0 .opened []) = (none, encAt 0x55 7 .opened []) ∧
    packPut Config.gsm7Core 0x55 (encAt 0 1 .opened []) = (none, encAt 0 0 .opened [0xAA]) ∧
    packPut Config.gsm7Core 0x55 (encAt 0x2A 6 .opened []) = (none, encAt 0x15 5 .opened [0x6A]) ∧
    packPut Config.gsm7Core 0x55 (encAt 0x2A 7 .opened []) = (none, encAt 0x2A 6 .opened [0xAA]) ∧
    packPut Config.gsm7Core 0x7F (encAt 0x7F 7 .opened []) = (none, encAt 0x3F 6 .opened [0xFF]) := by decide

/-- 95 section 2.3: `PackFlush` at `ENC.K` = 0, 1, 6 and 7, with either `PAD_FILL`. -/
theorem test_packFlush :
    packFlush Config.gsm7Core (encAt 0 0 .opened []) = (none, encAt 0 0 .opened []) ∧
    packFlush Config.gsm7Core (encAt 0x01 1 .opened []) = (none, encAt 0 0 .opened [0xFF]) ∧
    packFlush Config.gsm7Core (encAt 0x15 6 .opened []) = (none, encAt 0 0 .opened [0xD5]) ∧
    packFlush Config.gsm7Core (encAt 0x55 7 .opened []) = (none, encAt 0 0 .opened [0xD5]) ∧
    packFlush { Config.gsm7Core with padFill := 0 } (encAt 0x15 6 .opened []) =
      (none, encAt 0 0 .opened [0x15]) := by decide

/-- 95 section 2.4: `UnpackGet` of 0xA7 at `DEC.R` = 0, 2, 6 and 7, and with the source exhausted. -/
theorem test_unpackGet :
    unpackGet Config.gsm7Core (decAt 0 0 0 [0xA7] 0) = (.septet 0x27, decAt 0x01 1 0 [0xA7] 1) ∧
    unpackGet Config.gsm7Core (decAt 0x01 2 0 [0xA7] 0) = (.septet 0x1D, decAt 0x05 3 0 [0xA7] 1) ∧
    unpackGet Config.gsm7Core (decAt 0x15 6 0 [0xA7] 0) = (.septet 0x55, decAt 0x53 7 0 [0xA7] 1) ∧
    unpackGet Config.gsm7Core (decAt 0x55 7 0 [0xA7] 0) = (.septet 0x55, decAt 0 0 0 [0xA7] 0) ∧
    unpackGet Config.gsm7Core (decAt 0x15 6 0 [] 0) = (.exhausted, { decAt 0x15 6 0 [] 0 with reads := 1 }) ∧
    unpackGet Config.gsm7Core (decAt 0x55 7 0 [] 0) = (.septet 0x55, decAt 0 0 0 [] 0) := by decide

/-- 95 section 2.1, decoding. -/
theorem test_lutDec :
    lutDecB defaultAlphabet 0x00 = some 0x40 ∧ lutDecB defaultAlphabet 0x40 = some 0xA1 ∧
    lutDecB defaultAlphabet 0x10 = some 0x394 ∧ lutDecB defaultAlphabet 0x24 = some 0xA4 ∧
    lutDecB defaultAlphabet 0x7F = some 0xE0 ∧ lutDecB defaultAlphabet 0x1B = none ∧
    lutDecX defaultAlphabet 0x65 = some 0x20AC ∧ lutDecX defaultAlphabet 0x3D = some 0x7E := by decide +kernel

/-! ### The five commands, one step each -/

/-- V1, the second command: 'e' on the held 'H' writes 0xC8. -/
theorem test_feed_basic : encFeed Config.gsm7Core 0x65 (encAt 0x48 7 .opened []) =
    (encAt 0x32 6 .opened [0xC8], okNone) := by decide +kernel

/-- V27, the second command: '€' on the held 'a' writes two octets. -/
theorem test_feed_extended : encFeed Config.gsm7Core 0x20AC (encAt 0x61 7 .opened []) =
    (encAt 0x19 5 .opened [0xE1, 0x4D], okNone) := by decide +kernel

/-- V1, the last command. -/
theorem test_finish : encFinish Config.gsm7Core (encAt 0x06 3 .opened [0xC8, 0x32, 0x9B, 0xFD]) =
    (encAt 0 0 .closed [0xC8, 0x32, 0x9B, 0xFD, 0xFE], okNone) := by decide +kernel

/-- V7: a second `ENC.FINISH` writes nothing. -/
theorem test_finish_twice : encFinish Config.gsm7Core (encAt 0 0 .closed [0xC8]) =
    (encAt 0 0 .closed [0xC8], encoderClosed 0) := by decide +kernel

/-- V62: `ENC.RST` after "He". -/
theorem test_enc_rst : encRst (encAt 0x32 6 .opened [0xC8]) =
    ({ encAt 0 0 .opened [] with writes := 1 }, okNone) := by decide

/-- V2, the third pull. -/
theorem test_next_basic : (decNext Config.gsm7Core (decAt 0 2 2 [0x54, 0x3A, 0x9D, 0x0E] 2)).toOption =
    some (decAt 0x04 3 3 [0x54, 0x3A, 0x9D, 0x0E] 3, okChar 0x74) := by decide +kernel

/-- Program P5, the second pull: `DanglingEscape` at position 1. -/
theorem test_next_dangling : (decNext Config.gsm7Core (decAt 0x01 1 1 [0xC1, 0x0D] 1)).toOption =
    some ({ decAt 0 2 2 [0xC1, 0x0D] 2 with reads := 3, st := .failed, err := ⟨.danglingEscape, 0x1B, 1⟩ },
      ⟨.danglingEscape, .none, 0x1B, 1⟩) := by decide +kernel

/-- V63: `DEC.RST [0x80]` on a failed decoder. -/
theorem test_dec_rst : decRst [0x80] { decAt 0 2 2 [0xC1, 0x0D] 2 with
      st := .failed, err := ⟨.danglingEscape, 0x1B, 1⟩ } = ({ decAt 0 0 0 [0x80] 0 with reads := 2 }, okNone) := by decide

/-- V67: the read after the escape fails. -/
theorem test_source_failure :
    (decNext (failing [] [(1, 7)]) (decAt 0 0 0 [0x9B, 0xF2] 0)).toOption =
    some ({ decAt 1 1 1 [0x9B, 0xF2] 1 with
      reads := 2, st := .failed, err := ⟨.underlyingIOFailure, 0, 7⟩ },
      ⟨.underlyingIOFailure, .none, 0, 7⟩) := by decide +kernel

/-- V68: the write of 0xC8 fails; what `ENC.ACC` and `ENC.K` hold is not asked. -/
theorem test_sink_failure : (fun p : Enc × Response => (p.1.st, p.1.sink, p.2))
      (encFeed (failing [(0, 5)] []) 0x65 (encAt 0x48 7 .opened [])) =
    (EncStatus.closed, [], ⟨.underlyingIOFailure, .none, 0, 5⟩) := by decide +kernel

/-- 95 section 2.8, the response words of V4, V56 and V55. -/
theorem test_response_words :
    rsp0 (unsupportedCharacter 0x4E2D) = 0x10004E2D ∧ rsp0 (encoderClosed 0x61) = 0x50000061 ∧
    rsp0 (unsupportedCharacter 0x1FFFFF) = 0x101FFFFF ∧ rsp0 (okChar 0x54) = 0x01000054 ∧
    rsp0 okEnd = 0x02000000 ∧ rsp0 okNone = 0 := by decide

/-- V3: "Tttt" by `ENC.STR` and `ENC.FINISH`; program P2 by `DEC.ALL`. -/
theorem test_pseudo :
    (encFinish Config.gsm7Core (encStr Config.gsm7Core [0x54, 0x74, 0x74, 0x74] Enc.reset).1).1.sink =
      [0x54, 0x3A, 0x9D, 0xFE] ∧
    decAll Config.gsm7Core (decAt 0 0 0 [0x54, 0x3A, 0x9D, 0x0E] 0) = .stopped [0x54, 0x74, 0x74, 0x74] okEnd
      { decAt 0 4 4 [0x54, 0x3A, 0x9D, 0x0E] 4 with reads := 5, st := .ended } := by decide +kernel

/-! ### Witnesses: the hypotheses of each statement can be met together -/

theorem test_witness_reset_invariant : Inv State.reset := by
  refine ⟨⟨by decide, by decide⟩, by unfold cursorInv; decide, rfl⟩

/-- `IllegalWordChangesNothing`: a decoder command and an ill-formed word on `ENC`'s port, an encoder command
on `DEC`'s. -/
theorem test_witness_illegal :
    (∀ i, decode 0x80000000 = .ok i → i = .decNext ∨ i = .decRst) ∧
    (∀ i, decode 0x10200000 = .ok i → i = .decNext ∨ i = .decRst) ∧
    (∀ i, decode 0x10000048 = .ok i → i ≠ .decNext ∧ i ≠ .decRst) ∧
    (sends [.encCommand 0x80000000]).pending = [.encCommand 0x80000000] ∧
    (sends [.decCommand 0x10000048 []]).pending = [.decCommand 0x10000048 []] := by
  have h1 : decode 0x80000000 = .ok .decNext := by decide
  have h2 : decode 0x10200000 = .error (.nonzeroZ 1) := by decide
  have h3 : decode 0x10000048 = .ok (.encFeed 0x48) := by decide
  refine ⟨?_, ?_, ?_, rfl, rfl⟩
  · intro i h; rw [h1] at h; cases h; exact .inl rfl
  · intro i h; rw [h2] at h; cases h
  · intro i h; rw [h3] at h; cases h; exact ⟨by simp, by simp⟩

/-- `StepRunsTheDecodedCommand`, both ports. -/
theorem test_witness_step :
    (decode 0x20000000 = .ok .encFinish ∧ portOf .encFinish = .enc ∧
      (sends [.encCommand 0x20000000]).pending = .encCommand 0x20000000 :: []) ∧
    (decode 0x90000000 = .ok .decRst ∧ portOf .decRst = .dec ∧
      (sends [.decCommand 0x90000000 [0x80]]).pending = .decCommand 0x90000000 [0x80] :: []) := by decide

theorem test_witness_idle : State.reset.pending = [] := rfl

/-- `EachCommandGivesOneListedResponse`: a next state of every command from the reset state, which meets
`Inv`. -/
theorem test_witness_response :
    (∃ t, execIn Config.gsm7Core (.encFeed 0x48) State.reset = .next t) ∧
    (∃ t, execIn Config.gsm7Core .encFinish State.reset = .next t) ∧
    (∃ t, execIn Config.gsm7Core .encRst State.reset = .next t) ∧
    (∃ t, execIn Config.gsm7Core .decNext State.reset = .next t) ∧
    (∃ t, execIn Config.gsm7Core .decRst State.reset = .next t) :=
  ⟨⟨_, rfl⟩, ⟨_, rfl⟩, ⟨_, rfl⟩, ⟨_, rfl⟩, ⟨_, rfl⟩⟩

theorem test_witness_response_words : rsp0 okNone = rsp0 okNone ∧ rsp1 okNone = rsp1 okNone := by decide

theorem test_witness_hard_reset :
    (sends [.hardReset [0x54]]).pending = .hardReset [0x54] :: [] := rfl

/-- `FeedPacksABasicCharacter` at `ENC.K` = 0 and 7. -/
theorem test_witness_feed_basic :
    (let e := encAt 0 0 .opened []
     e.st = .opened ∧ e.acc.toNat < 2 ^ e.k.toNat ∧
     lutEnc Config.gsm7Core.alphabet 0x48 = some (false, 0x48)) ∧
    (let e := encAt 0x7F 7 .opened [0x41]
     e.st = .opened ∧ e.acc.toNat < 2 ^ e.k.toNat ∧
     lutEnc Config.gsm7Core.alphabet 0x40 = some (false, 0x00)) := by decide +kernel

/-- `FeedPacksAnExtendedCharacter` at `ENC.K` = 0 and 7. -/
theorem test_witness_feed_extended :
    (let e := encAt 0 0 .opened []
     e.st = .opened ∧ e.acc.toNat < 2 ^ e.k.toNat ∧
     lutEnc Config.gsm7Core.alphabet 0x20AC = some (true, 0x65)) ∧
    (let e := encAt 0x61 7 .opened []
     e.st = .opened ∧ e.acc.toNat < 2 ^ e.k.toNat ∧
     lutEnc Config.gsm7Core.alphabet 0x0C = some (true, 0x0A)) := by decide +kernel

/-- `FeedPacksInEveryBlock`: no octet completed although the next transfer fails; two octets accepted and the
third transfer failing. -/
theorem test_witness_feed_every_block :
    (let e := encAt 0 0 .opened []
     e.st = .opened ∧ e.acc.toNat < 2 ^ e.k.toNat ∧
     septetForm (failing [(0, 5)] []).alphabet 0x48 = some [0x48] ∧
     accepts (failing [(0, 5)] []).ioFail.sink e.writes (octetCount e.k [(0x48 : Septet)].length)) ∧
    (let e := encAt 0x61 7 .opened []
     e.st = .opened ∧ e.acc.toNat < 2 ^ e.k.toNat ∧
     septetForm (failing [(2, 5)] []).alphabet 0x0C = some [0x1B, 0x0A] ∧
     accepts (failing [(2, 5)] []).ioFail.sink e.writes
       (octetCount e.k [(0x1B : Septet), 0x0A].length)) := by decide +kernel

/-- `UnsupportedCharacterChangesNoState`: V4, V54 (the control code U+001B) and V55. -/
theorem test_witness_unsupported :
    State.reset.enc.st = .opened ∧
    (∀ x, lutDecB Config.gsm7Core.alphabet x ≠ some 0x4E2D ∧ lutDecX Config.gsm7Core.alphabet x ≠ some 0x4E2D) ∧
    (∀ x, lutDecB Config.gsm7Core.alphabet x ≠ some 0x1B ∧ lutDecX Config.gsm7Core.alphabet x ≠ some 0x1B) ∧
    (∀ x, lutDecB Config.gsm7Core.alphabet x ≠ some 0x1FFFFF ∧
      lutDecX Config.gsm7Core.alphabet x ≠ some 0x1FFFFF) := by decide +kernel

theorem test_witness_closed : (withEnc (encAt 0 0 .closed [0xC8])).enc.st = .closed := rfl

/-- `EncoderResetIsFresh` and `DecoderResetBindsTheSource`: what leaves `CLOSED`, `ENDED` and `FAILED`. -/
theorem test_witness_leaving :
    (∃ t, exec .encRst (withEnc (encAt 0 0 .closed [0xC8])) = .next t ∧ t.enc.st = .opened) ∧
    (∃ t, exec .decRst (withDec { decAt 0 0 0 [] 0 with st := .ended }) = .next t ∧ t.dec.st = .run) ∧
    (let s := { withDec { decAt 0 1 1 [0x1B] 1 with st := .failed } with srcIn := [0x80] }
     s.dec.st = .failed ∧ s.srcIn = [0x80]) :=
  ⟨⟨_, rfl, rfl⟩, ⟨_, rfl, rfl⟩, by decide⟩

/-- `FinishFlushesAndCloses` with nothing held and the next transfer failing, one bit held, and seven held. -/
theorem test_witness_finish :
    (let e := encAt 0 0 .opened []
     e.st = .opened ∧ e.acc.toNat < 2 ^ e.k.toNat ∧ failureAt (failing [(0, 5)] []).ioFail.sink e.writes = some 5 ∧
     (e.k ≠ 0 → failureAt (failing [(0, 5)] []).ioFail.sink e.writes = none)) ∧
    (let e := encAt 1 1 .opened []
     e.st = .opened ∧ e.acc.toNat < 2 ^ e.k.toNat ∧
     (e.k ≠ 0 → failureAt (failing [(1, 5)] []).ioFail.sink e.writes = none)) ∧
    (let e := encAt 0x7F 7 .opened []
     e.st = .opened ∧ e.acc.toNat < 2 ^ e.k.toNat ∧
     (e.k ≠ 0 → failureAt Config.gsm7Core.ioFail.sink e.writes = none)) := by decide

/-- `FlushPadsWithPadFill` at `ENC.K` = 1 and 7. -/
theorem test_witness_flush :
    (let e := encAt 1 1 .opened []
     e.k ≠ 0 ∧ e.acc.toNat < 2 ^ e.k.toNat ∧ failureAt Config.gsm7Core.ioFail.sink e.writes = none) ∧
    (let e := encAt 0x55 7 .opened []
     e.k ≠ 0 ∧ e.acc.toNat < 2 ^ e.k.toNat ∧
     failureAt (failing [(1, 5)] []).ioFail.sink e.writes = none) := by decide

/-- `SinkFailureClosesTheEncoder`: V68, and the second of the two octets of a '€'. -/
theorem test_witness_sink_failure :
    (let e := encAt 0x48 7 .opened []
     e.st = .opened ∧ e.acc.toNat < 2 ^ e.k.toNat ∧
     septetForm (failing [(0, 5)] []).alphabet 0x65 = some [0x65] ∧
     0 < octetCount e.k [(0x65 : Septet)].length ∧
     failsAfter (failing [(0, 5)] []).ioFail.sink e.writes 0 5) ∧
    (let e := encAt 0x61 7 .opened []
     e.st = .opened ∧ e.acc.toNat < 2 ^ e.k.toNat ∧
     septetForm (failing [(1, 5)] []).alphabet 0x20AC = some [0x1B, 0x65] ∧
     1 < octetCount e.k [(0x1B : Septet), 0x65].length ∧
     failsAfter (failing [(1, 5)] []).ioFail.sink e.writes 1 5) := by decide +kernel

theorem test_witness_sink_failure_finish :
    let e := encAt 0x48 7 .opened []
    e.st = .opened ∧ e.k ≠ 0 ∧ failureAt (failing [(0, 5)] []).ioFail.sink e.writes = some 5 := by decide

/-- `EncoderStatesFollowTheTable`, the premises row by row: a feed that completes no octet while the next
transfer fails, a refused character, a finish with nothing held while the next transfer fails, a failing feed,
a failing finish, `CLOSED`, a word that is no command of the port. -/
theorem test_witness_states :
    (septetForm (failing [(0, 5)] []).alphabet 0x48 = some [0x48] ∧
      accepts (failing [(0, 5)] []).ioFail.sink 0 (octetCount 0 [(0x48 : Septet)].length)) ∧
    septetForm Config.gsm7Core.alphabet 0x4E2D = none ∧
    ((encAt 0 0 .opened []).k ≠ 0 → failureAt (failing [(0, 5)] []).ioFail.sink 0 = none) ∧
    (septetForm (failing [(1, 5)] []).alphabet 0x20AC = some [0x1B, 0x65] ∧
      1 < octetCount 7 [(0x1B : Septet), 0x65].length ∧ failsAfter (failing [(1, 5)] []).ioFail.sink 0 1 5) ∧
    ((encAt 0x48 7 .opened []).k ≠ 0 ∧ failureAt (failing [(0, 5)] []).ioFail.sink 0 = some 5) ∧
    (withEnc (encAt 0 0 .closed [])).enc.st = .closed ∧
    ((sends [.encCommand 0x80000000]).pending = [.encCommand 0x80000000] ∧
      decodeAt .enc 0x80000000 = none) := by decide +kernel

/-- The encoder's invariant holds in the states of the witnesses of `EncoderStatesFollowTheTable`. -/
theorem test_witness_states_invariant :
    encInv (encAt 0 0 .opened []) ∧ encInv (encAt 0x48 7 .opened []) ∧ encInv (encAt 0 0 .closed []) :=
  ⟨by simp [encInv, encAt], by simp [encInv, encAt], by simp [encInv, encAt]⟩

/-- `SinkOnlyGrowsUntilReset`: a run of two feeds, and an `ENC.RST` that the premise shuts out. -/
theorem test_witness_sink_grows :
    (∀ ev ∈ (sends [.encCommand 0x10000048, .encCommand 0x10000065]).pending.take 2, resetsEncoder ev = false) ∧
    (∃ t, runIn Config.gsm7Core 2 (sends [.encCommand 0x10000048, .encCommand 0x10000065]) = .next t) ∧
    resetsEncoder (.encCommand 0x30000000) = true := ⟨by decide, ⟨_, rfl⟩, by decide⟩

/-- `SinkAndHeldBitsArePackedText` and `FinishedSinkHasTheLayout`: a fresh encoder on a platform that never
fails. -/
theorem test_witness_fresh_encoder : isFreshEnc Enc.reset ∧ Config.gsm7Core.ioFail = .never :=
  ⟨⟨rfl, rfl, rfl, rfl⟩, rfl⟩

/-- `EightSeptetsGiveSevenOctets`: an octet boundary after one octet, seven transfers
accepted and the next one failing. -/
theorem test_witness_block :
    let e := encAt 0 0 .opened [0xC8]
    e.acc = 0 ∧ e.k = 0 ∧ accepts (failing [(8, 5)] []).ioFail.sink e.writes 7 ∧
      failureAt (failing [(8, 5)] []).ioFail.sink (e.writes + 7) = some 5 := by decide

theorem test_witness_finished :
    ∃ f r, encFinish Config.gsm7Core (feedEach Config.gsm7Core [0x41, 0x4E2D, 0x42] Enc.reset) = (f, r) ∧
      r = okNone := ⟨_, _, rfl, by decide +kernel⟩

/-- `UnpackingInvertsPacking` with one septet. -/
theorem test_witness_unpacking : Config.gsm7Core.ioFail = .never ∧ isFreshEnc Enc.reset ∧
    isFreshDec (packFlush Config.gsm7Core (packAll Config.gsm7Core [0x41] Enc.reset).2).2.sink
      (decAt 0 0 0 [0xC1] 0) ∧
    [(0x41 : Septet)].length + 1 < 3 :=
  ⟨rfl, ⟨rfl, rfl, rfl, rfl⟩, ⟨rfl, rfl, rfl, rfl, by decide +kernel, rfl⟩, by decide⟩

/-- `UnpackingInvertsPacking`, the branch of 7 mod 8: the seven septets of V5, whose sink has seven octets. -/
theorem test_witness_unpacking_seven :
    isFreshEnc Enc.reset ∧
    isFreshDec (packFlush Config.gsm7Core
        (packAll Config.gsm7Core [0x41, 0x42, 0x43, 0x44, 0x45, 0x46, 0x47] Enc.reset).2).2.sink
      (decAt 0 0 0 [0x41, 0xE1, 0x90, 0x58, 0x34, 0x1E, 0xFF] 0) ∧
    [(0x41 : Septet), 0x42, 0x43, 0x44, 0x45, 0x46, 0x47].length % 8 = 7 ∧
    [(0x41 : Septet), 0x42, 0x43, 0x44, 0x45, 0x46, 0x47].length + 1 < 9 :=
  ⟨⟨rfl, rfl, rfl, rfl⟩, ⟨rfl, rfl, rfl, rfl, by decide +kernel, rfl⟩, by decide, by decide⟩

/-- `BuildRefusesIllFormedTables` (with `test_default_config_builds`) and `LookupsAreInverse`. -/
theorem test_witness_alphabet : alphabetT.wellFormed = true ∧ lutDecX alphabetT 0x65 = some 0x20AC ∧
    lutEnc alphabetT 0x40 = none := ⟨test_alphabetT_wellFormed, by decide +kernel⟩

/-- `NextAnswersABasicCharacter` with an octet read and with seven bits held. -/
theorem test_witness_next_basic :
    (takesSeptet Config.gsm7Core (decAt 0 0 0 [0x54] 0) 0x54 (decAt 0 1 1 [0x54] 1) ∧
      lutDecB Config.gsm7Core.alphabet 0x54 = some 0x54) ∧
    (takesSeptet Config.gsm7Core (decAt 0x7F 7 7 [] 0) 0x7F (decAt 0 0 8 [] 0) ∧
      lutDecB Config.gsm7Core.alphabet 0x7F = some 0xE0) ∧
    (decAt 0x7F 7 7 [] 0).st = .run ∧ (decAt 0x7F 7 7 [] 0).acc.toNat < 2 ^ (decAt 0x7F 7 7 [] 0).r.toNat ∧
    (decAt 0x7F 7 7 [] 0).pos.toNat + 1 < 2 ^ 32 ∧ (0x7F : Septet) ≠ 0x1B :=
  ⟨⟨.inr ⟨by decide, rfl, 0x54, rfl, by decide, by decide⟩, by decide +kernel⟩,
   ⟨.inl ⟨rfl, rfl, by decide⟩, by decide +kernel⟩, rfl, by decide, by decide, by decide⟩

/-- `NextAnswersAnExtendedCharacter`: V24's octets 9B F2. -/
theorem test_witness_next_extended :
    takesSeptet Config.gsm7Core (decAt 0 0 0 [0x9B, 0xF2] 0) 0x1B (decAt 1 1 1 [0x9B, 0xF2] 1) ∧
    takesSeptet Config.gsm7Core (decAt 1 1 1 [0x9B, 0xF2] 1) 0x65 (decAt 3 2 2 [0x9B, 0xF2] 2) ∧
    lutDecX Config.gsm7Core.alphabet 0x65 = some 0x20AC ∧ (decAt 0 0 0 [0x9B, 0xF2] 0).st = .run ∧
    (decAt 0 0 0 [0x9B, 0xF2] 0).pos.toNat + 2 < 2 ^ 32 :=
  ⟨.inr ⟨by decide, rfl, 0x9B, rfl, by decide, by decide⟩,
   .inr ⟨by decide, rfl, 0xF2, rfl, by decide, by decide⟩, by decide +kernel, rfl, by decide⟩

/-- `NextEndsAtACharacterBoundary`: V2, the fifth pull. -/
theorem test_witness_next_end : (decAt 0 4 4 [0x54, 0x3A, 0x9D, 0x0E] 4).st = .run ∧
    runsOut Config.gsm7Core (decAt 0 4 4 [0x54, 0x3A, 0x9D, 0x0E] 4)
      { decAt 0 4 4 [0x54, 0x3A, 0x9D, 0x0E] 4 with reads := 5 } :=
  ⟨rfl, by decide, rfl, rfl, by decide⟩

/-- `NextAnswersInEveryBlock`, each clause with the transfer after the last one failing: a basic character at the
last position the clause takes, an extended character, the end, and the end after an escape. -/
theorem test_witness_next_every_block :
    (takesSeptet (failing [] [(0, 7)]) (decAt 0x41 7 0xFFFFFFFE [] 0) 0x41 (decAt 0 0 0xFFFFFFFF [] 0) ∧
      (0xFFFFFFFE : BitVec 32).toNat + 1 < 2 ^ 32 ∧ (failing [] [(0, 7)]).posW ≤ 32 ∧
      lutDecB (failing [] [(0, 7)]).alphabet 0x41 = some 0x41) ∧
    (takesSeptet (failing [] [(2, 7)]) (decAt 0 0 0 [0x9B, 0xF2] 0) 0x1B (decAt 1 1 1 [0x9B, 0xF2] 1) ∧
      takesSeptet (failing [] [(2, 7)]) (decAt 1 1 1 [0x9B, 0xF2] 1) 0x65 (decAt 3 2 2 [0x9B, 0xF2] 2) ∧
      lutDecX (failing [] [(2, 7)]).alphabet 0x65 = some 0x20AC) ∧
    runsOut (failing [] [(1, 7)]) (decAt 0 0 0 [] 0) { decAt 0 0 0 [] 0 with reads := 1 } ∧
    (takesSeptet (failing [] [(2, 7)]) (decAt 0 0 0 [0x1B] 0) 0x1B (decAt 0 1 1 [0x1B] 1) ∧
      runsOut (failing [] [(2, 7)]) (decAt 0 1 1 [0x1B] 1) { decAt 0 1 1 [0x1B] 1 with reads := 2 }) :=
  ⟨⟨.inl ⟨rfl, rfl, by decide⟩, by decide, by decide, by decide +kernel⟩,
   ⟨.inr ⟨by decide, by decide, 0x9B, rfl, by decide, by decide⟩,
    .inr ⟨by decide, by decide, 0xF2, rfl, by decide, by decide⟩, by decide +kernel⟩,
   ⟨by decide, by decide, rfl, by decide⟩,
   .inr ⟨by decide, by decide, 0x1B, rfl, by decide, by decide⟩, by decide, by decide, rfl, by decide⟩

/-- `InvalidSeptetFailsTheDecoder`: V9 (the basic table) and V8 (the extension table), which is also
`NextRefusesAnUndefinedExtension`. -/
theorem test_witness_invalid :
    (takesSeptet (withAlphabet alphabetT) (decAt 0 0 0 [0x00] 0) 0x00 (decAt 0 1 1 [0x00] 1) ∧
      lutDecB (withAlphabet alphabetT).alphabet 0x00 = none ∧ (0 : BitVec 32).toNat + 1 < 2 ^ 32) ∧
    (takesSeptet Config.gsm7Core (decAt 0 0 0 [0x1B, 0x00] 0) 0x1B (decAt 0 1 1 [0x1B, 0x00] 1) ∧
      takesSeptet Config.gsm7Core (decAt 0 1 1 [0x1B, 0x00] 1) 0x00 (decAt 0 2 2 [0x1B, 0x00] 2) ∧
      lutDecX Config.gsm7Core.alphabet 0x00 = none ∧ Config.gsm7Core.posW ≤ 32) :=
  ⟨⟨.inr ⟨by decide, rfl, 0x00, rfl, by decide, by decide⟩, by decide +kernel, by decide⟩,
   .inr ⟨by decide, rfl, 0x1B, rfl, by decide, by decide⟩,
   .inr ⟨by decide, rfl, 0x00, rfl, by decide, by decide⟩, by decide +kernel, by decide⟩

/-- `DanglingEscapeFailsTheDecoder`: V6's single escape. -/
theorem test_witness_dangling :
    takesSeptet Config.gsm7Core (decAt 0 0 0 [0x1B] 0) 0x1B (decAt 0 1 1 [0x1B] 1) ∧
    runsOut Config.gsm7Core (decAt 0 1 1 [0x1B] 1) { decAt 0 1 1 [0x1B] 1 with reads := 2 } :=
  ⟨.inr ⟨by decide, rfl, 0x1B, rfl, by decide, by decide⟩, by decide, rfl, rfl, by decide⟩

/-- `SourceFailureFailsTheDecoder`: V66 and V67. -/
theorem test_witness_source_failure :
    readFails (failing [] [(0, 0xDEAD0001)]) (decAt 0 0 0 [] 0) 0xDEAD0001
      { decAt 0 0 0 [] 0 with reads := 1 } ∧
    (takesSeptet (failing [] [(1, 7)]) (decAt 0 0 0 [0x9B, 0xF2] 0) 0x1B (decAt 1 1 1 [0x9B, 0xF2] 1) ∧
      readFails (failing [] [(1, 7)]) (decAt 1 1 1 [0x9B, 0xF2] 1) 7
        { decAt 1 1 1 [0x9B, 0xF2] 1 with reads := 2 }) :=
  ⟨⟨by decide, by decide, by decide⟩, .inr ⟨by decide, by decide, 0x9B, rfl, by decide, by decide⟩,
   by decide, by decide, by decide⟩

theorem test_witness_sticky :
    (withDec { decAt 0 4 4 [] 0 with st := .ended }).dec.st = .ended ∧
    (withDec { decAt 0 1 1 [0x1B] 1 with st := .failed, err := ⟨.danglingEscape, 0x1B, 0⟩ }).dec.st = .failed :=
  ⟨rfl, rfl⟩

/-- `PositionOverflowIsRefused`: seven bits held at the last position; the escape in seven held bits at the last
but one, and a septet after it. -/
theorem test_witness_overflow :
    ((decAt 0x41 7 0xFFFFFFFF [] 0).st = .run ∧
      (decAt 0x41 7 0xFFFFFFFF [] 0).acc.toNat < 2 ^ (decAt 0x41 7 0xFFFFFFFF [] 0).r.toNat ∧
      (decAt 0x41 7 0xFFFFFFFF [] 0).pos.toNat = 2 ^ 32 - 1 ∧
      takesSeptet Config.gsm7Core (decAt 0x41 7 0xFFFFFFFF [] 0) 0x41 (decAt 0 0 0 [] 0)) ∧
    ((decAt 0x1B 7 0xFFFFFFFE [0x65] 0).pos.toNat = 2 ^ 32 - 2 ∧
      takesSeptet Config.gsm7Core (decAt 0x1B 7 0xFFFFFFFE [0x65] 0) 0x1B (decAt 0 0 0xFFFFFFFF [0x65] 0) ∧
      takesSeptet Config.gsm7Core (decAt 0 0 0xFFFFFFFF [0x65] 0) 0x65 (decAt 0 1 0 [0x65] 1)) :=
  ⟨⟨rfl, by decide, by decide, .inl ⟨rfl, rfl, by decide⟩⟩, by decide, .inl ⟨rfl, rfl, by decide⟩,
   .inr ⟨by decide, rfl, 0x65, rfl, by decide, by decide⟩⟩

/-- `OneCharacterPerPull`: a basic and an extended character. -/
theorem test_witness_one_character :
    (∃ t, exec .decNext (withDec (decAt 0 0 0 [0x54] 0)) = .next t ∧ t.decRsp = [okChar 0x54]) ∧
    (∃ t, exec .decNext (withDec (decAt 0 0 0 [0x9B, 0xF2] 0)) = .next t ∧ t.decRsp = [okChar 0x20AC]) :=
  ⟨⟨_, rfl, by decide +kernel⟩, ⟨_, rfl, by decide +kernel⟩⟩

/-- `EndDropsOnlyTheRemainder`: the end of "A" in one octet, one bit dropped. -/
theorem test_witness_end : Inv (withDec (decAt 1 1 1 [0xC1] 1)) ∧ (withDec (decAt 1 1 1 [0xC1] 1)).dec.st = .run ∧
    ∃ t, exec .decNext (withDec (decAt 1 1 1 [0xC1] 1)) = .next t ∧ t.dec.st = .ended :=
  ⟨⟨⟨by decide, by decide⟩, by unfold cursorInv; decide, rfl⟩, rfl, _, rfl, by decide +kernel⟩

/-- `PaddingBitsAreNeverLookedAt`: 41 and C1 differ in the one padding bit of "A". -/
theorem test_witness_padding : isFreshDec ([] ++ [0x41]) (decAt 0 0 0 [0x41] 0) ∧
    isFreshDec ([] ++ [0xC1]) (decAt 0 0 0 [0xC1] 0) ∧ Config.gsm7Core.posW ≤ 32 ∧
    Config.gsm7Core.ioFail = .never ∧ ∀ j, j < 8 - 8 * (([] : List Octet).length + 1) % 7 → (0x41 : Octet).getLsbD j = (0xC1 : Octet).getLsbD j :=
  ⟨⟨rfl, rfl, rfl, rfl, rfl, rfl⟩, ⟨rfl, rfl, rfl, rfl, rfl, rfl⟩, by decide, rfl, by decide⟩

/-- One feed of a basic character. -/
theorem test_feed_letter {c : Config} {cp : Codepoint} {x : Septet} {e e1 : Enc} (hst : e.st = .opened)
    (hl : lutEnc c.alphabet cp = some (false, x)) (hp : packAll c [x] e = (none, e1)) :
    encFeed c cp e = (e1, okNone) := by
  simp only [encFeed, hst, hl, hp]; rfl

/-- V5, fed: "ABCDEFG", with any table that has the seven letters in their places. -/
theorem test_feed_seven {a : Alphabet} (hall : [((0x41 : Codepoint), (0x41 : Septet)), (0x42, 0x42),
      (0x43, 0x43), (0x44, 0x44), (0x45, 0x45), (0x46, 0x46), (0x47, 0x47)].all
      (fun p => lutEnc a p.1 == some (false, p.2)) = true) :
    encStr (withAlphabet a) [0x41, 0x42, 0x43, 0x44, 0x45, 0x46, 0x47] Enc.reset =
      (encAt 1 1 .opened [0x41, 0xE1, 0x90, 0x58, 0x34, 0x1E], okNone) := by
  have h := fun p hp => beq_iff_eq.mp (List.all_eq_true.mp hall p hp)
  have h1 : encFeed (withAlphabet a) 0x41 Enc.reset =
      (encAt 0x41 7 .opened [], okNone) :=
    test_feed_letter rfl (h (0x41, 0x41) (by simp)) rfl
  have h2 : encFeed (withAlphabet a) 0x42 (encAt 0x41 7 .opened []) =
      (encAt 0x21 6 .opened [0x41], okNone) :=
    test_feed_letter rfl (h (0x42, 0x42) (by simp)) rfl
  have h3 : encFeed (withAlphabet a) 0x43 (encAt 0x21 6 .opened [0x41]) =
      (encAt 0x10 5 .opened [0x41, 0xE1], okNone) :=
    test_feed_letter rfl (h (0x43, 0x43) (by simp)) rfl
  have h4 : encFeed (withAlphabet a) 0x44 (encAt 0x10 5 .opened [0x41, 0xE1]) =
      (encAt 0x08 4 .opened [0x41, 0xE1, 0x90], okNone) :=
    test_feed_letter rfl (h (0x44, 0x44) (by simp)) rfl
  have h5 : encFeed (withAlphabet a) 0x45 (encAt 0x08 4 .opened [0x41, 0xE1, 0x90]) =
      (encAt 0x04 3 .opened [0x41, 0xE1, 0x90, 0x58], okNone) :=
    test_feed_letter rfl (h (0x45, 0x45) (by simp)) rfl
  have h6 : encFeed (withAlphabet a) 0x46 (encAt 0x04 3 .opened [0x41, 0xE1, 0x90, 0x58]) =
      (encAt 0x02 2 .opened [0x41, 0xE1, 0x90, 0x58, 0x34], okNone) :=
    test_feed_letter rfl (h (0x46, 0x46) (by simp)) rfl
  have h7 : encFeed (withAlphabet a) 0x47 (encAt 0x02 2 .opened [0x41, 0xE1, 0x90, 0x58, 0x34]) =
      (encAt 0x01 1 .opened [0x41, 0xE1, 0x90, 0x58, 0x34, 0x1E], okNone) :=
    test_feed_letter rfl (h (0x47, 0x47) (by simp)) rfl
  simp only [encStr, h1, h2, h3, h4, h5, h6, h7, okNone, if_true]

/-- `TextsSurviveTheRoundTrip`, first clause: V15, "A". -/
theorem test_witness_round_trip : Config.gsm7Core.wellFormed = true ∧ Config.gsm7Core.ioFail = .never ∧
    isFreshEnc Enc.reset ∧
    (∀ cp ∈ [(0x41 : Codepoint)], (lutEnc Config.gsm7Core.alphabet cp).isSome = true) ∧
    (textSeptets Config.gsm7Core.alphabet [0x41]).length + 1 < 2 ^ Config.gsm7Core.posW ∧
    isFreshDec (encFinish Config.gsm7Core (encStr Config.gsm7Core [0x41] Enc.reset).1).1.sink
      (decAt 0 0 0 [0xC1] 0) ∧
    (textSeptets Config.gsm7Core.alphabet [0x41]).length % 8 ≠ 7 :=
  ⟨test_default_wellFormed, rfl, ⟨rfl, rfl, rfl, rfl⟩, List.all_eq_true.mp (by decide +kernel), by decide +kernel,
   ⟨rfl, rfl, rfl, rfl, by decide +kernel, rfl⟩, by decide +kernel⟩

/-- `TextsSurviveTheRoundTrip`, second clause: V5, "ABCDEFG", whose padding decodes to U+00E0. -/
theorem test_witness_round_trip_padding_decodes :
    isFreshDec (encFinish Config.gsm7Core
      (encStr Config.gsm7Core [0x41, 0x42, 0x43, 0x44, 0x45, 0x46, 0x47] Enc.reset).1).1.sink
      (decAt 0 0 0 [0x41, 0xE1, 0x90, 0x58, 0x34, 0x1E, 0xFF] 0) ∧
    (∀ cp ∈ [(0x41 : Codepoint), 0x42, 0x43, 0x44, 0x45, 0x46, 0x47],
      (lutEnc Config.gsm7Core.alphabet cp).isSome = true) ∧
    (textSeptets Config.gsm7Core.alphabet [0x41, 0x42, 0x43, 0x44, 0x45, 0x46, 0x47]).length % 8 = 7 ∧
    lutDecB Config.gsm7Core.alphabet (padSeptet Config.gsm7Core) = some 0xE0 := by
  rw [show Config.gsm7Core = withAlphabet defaultAlphabet from rfl, test_feed_seven (by decide +kernel)]
  exact ⟨⟨rfl, rfl, rfl, rfl, by decide +kernel, rfl⟩, List.all_eq_true.mp (by decide +kernel),
    by decide +kernel, by decide +kernel⟩

/-- `TextsSurviveTheRoundTrip`, third clause: V5 with a well-formed table that does not define 0x7F. -/
theorem test_witness_round_trip_padding_invalid : (withAlphabet alphabetP).wellFormed = true ∧
    isFreshDec (encFinish (withAlphabet alphabetP)
      (encStr (withAlphabet alphabetP) [0x41, 0x42, 0x43, 0x44, 0x45, 0x46, 0x47] Enc.reset).1).1.sink
      (decAt 0 0 0 [0x41, 0xE1, 0x90, 0x58, 0x34, 0x1E, 0xFF] 0) ∧
    (∀ cp ∈ [(0x41 : Codepoint), 0x42, 0x43, 0x44, 0x45, 0x46, 0x47],
      (lutEnc (withAlphabet alphabetP).alphabet cp).isSome = true) ∧
    (textSeptets (withAlphabet alphabetP).alphabet [0x41, 0x42, 0x43, 0x44, 0x45, 0x46, 0x47]).length % 8 = 7 ∧
    lutDecB (withAlphabet alphabetP).alphabet (padSeptet (withAlphabet alphabetP)) = none := by
  rw [test_feed_seven (by decide +kernel)]
  exact ⟨by decide +kernel, ⟨rfl, rfl, rfl, rfl, by decide +kernel, rfl⟩,
    List.all_eq_true.mp (by decide +kernel), by decide +kernel, by decide +kernel⟩

/-- `StepKeepsTheInvariant` and `NoFailureWithoutThePlatform`: a command sent to the reset machine. -/
theorem test_witness_step_invariant : Inv (sends [.encCommand 0x10000048]) ∧
    Config.gsm7Core.ioFail = .never ∧ Config.gsm7Core.posW ≤ 32 ∧
    (sends [.encCommand 0x10000048]).dec.err.kind ≠ .underlyingIOFailure ∧
    (∃ t, step (sends [.encCommand 0x10000048]) = .next t) ∧
    ∃ t, stepIn Config.gsm7Core (sends [.encCommand 0x10000048]) = .next t :=
  ⟨⟨⟨by decide, by decide⟩, by unfold cursorInv; decide, rfl⟩, rfl, by decide, by decide, ⟨_, rfl⟩, _, rfl⟩

/-- `InstancesArePrivate`: two machines that agree on one instance and differ in the other, for both ports. -/
theorem test_witness_private :
    (portOf (.encFeed 0x48) = .enc ∧ (∃ t, exec (.encFeed 0x48) State.reset = .next t) ∧
      (withDec (decAt 0 0 0 [0x54] 0)).enc = State.reset.enc) ∧
    (portOf .decNext = .dec ∧ (∃ t, exec .decNext State.reset = .next t) ∧
      (withEnc (encAt 0 0 .closed [])).dec = State.reset.dec ∧
      (withEnc (encAt 0 0 .closed [])).srcIn = State.reset.srcIn) :=
  ⟨⟨rfl, ⟨_, rfl⟩, rfl⟩, ⟨rfl, ⟨_, rfl⟩, rfl, rfl⟩⟩

/-- `CommandsOfTheTwoPortsCommute`, either order. -/
theorem test_witness_commute : portOf (.encFeed 0x48) = .enc ∧ portOf .decNext = .dec ∧
    (∃ u t, exec (.encFeed 0x48) State.reset = .next u ∧ exec .decNext u = .next t) ∧
    (∃ v t, exec .decNext State.reset = .next v ∧ exec (.encFeed 0x48) v = .next t) :=
  ⟨rfl, rfl, ⟨_, _, rfl, rfl⟩, ⟨_, _, rfl, rfl⟩⟩

end Sys2Proof.Tests
end

/-! The instances are private (10_state R28): each command acts through a function of its own instance. -/

namespace Sys2Proof.Proofs

open Sys2Proof.Machine Sys2Proof.Laws

/-- What an encoder command does is a function `f` of the encoder alone, recorded by `answerEnc`
(10_state R28). -/
theorem execIn_enc_of_enc_alone {c : Config} {i : Instr} (hp : portOf i = .enc) :
    ∃ f : Enc → Enc × Response, ∀ s, execIn c i s = .next (answerEnc s (f s.enc)) := by
  cases i with
  | encFeed cp => exact ⟨encFeed c (feedOperand cp), fun _ => rfl⟩
  | encFinish => exact ⟨encFinish c, fun _ => rfl⟩
  | encRst => exact ⟨encRst, fun _ => rfl⟩
  | decNext => cases hp
  | decRst => cases hp

/-- What a decoder command does, refusals included, is a function `g` of the source input and the decoder
alone, recorded by `answerDec` (10_state R28; 43_decoder R141). -/
theorem execIn_dec_of_dec_alone {c : Config} {i : Instr} (hp : portOf i = .dec) :
    ∃ g : List Octet → Dec → Except Refusal (Dec × Response), ∀ s t,
      execIn c i s = .next t ↔ ∃ p, g s.srcIn s.dec = .ok p ∧ t = answerDec s p := by
  cases i with
  | encFeed cp => cases hp
  | encFinish => cases hp
  | encRst => cases hp
  | decNext =>
    refine ⟨fun _ => decNext c, fun s t => ?_⟩
    simp only [execIn, execDecNextIn]
    cases decNext c s.dec with
    | error r => simp
    | ok p => simp [eq_comm]
  | decRst =>
    refine ⟨fun src d => .ok (decRst src d), fun s t => ?_⟩
    simp [execIn, execDecRst, sourceOperand, eq_comm]

/-- Settles O50: a command of one port acts through a function of its own instance, so a state that agrees
there gets the same answer, and the other instance is not written. -/
theorem instancesArePrivate : Obligations.InstancesArePrivate := by
  intro i s t s' ht
  simp only [exec_eq] at ht ⊢
  constructor
  · intro hp
    obtain ⟨f, hf⟩ := execIn_enc_of_enc_alone (c := Config.gsm7Core) hp
    obtain rfl : answerEnc s (f s.enc) = t := by simpa [hf] using ht
    refine ⟨rfl, rfl, fun henc => ⟨_, (f s.enc).2, hf s', ?_⟩⟩
    simp [henc]
  · intro hp
    obtain ⟨g, hg⟩ := execIn_dec_of_dec_alone (c := Config.gsm7Core) hp
    obtain ⟨p, hgp, rfl⟩ := (hg s t).mp ht
    refine ⟨rfl, rfl, fun hdec hsrc => ⟨answerDec s' p, p.2, (hg s' _).mpr ⟨p, ?_, rfl⟩, rfl, rfl, rfl⟩⟩
    rw [hdec, hsrc, hgp]

end Sys2Proof.Proofs

/-! Command words and the rows of the opcode map (30_encoding R65 to R67): a word is its three fields, and the
decoder takes a word to a command exactly when it is that command's word. -/

namespace Sys2Proof.Proofs

open Sys2Proof.Laws

@[simp] theorem fieldOp_packFields (op : BitVec 4) (z : BitVec 7) (arg : BitVec 21) :
    fieldOp (packFields op z arg) = op :=
  (BitVec.extractLsb'_append_eq_of_le (by decide)).trans BitVec.extractLsb'_append_eq_left

@[simp] theorem fieldZ_packFields (op : BitVec 4) (z : BitVec 7) (arg : BitVec 21) :
    fieldZ (packFields op z arg) = z :=
  (BitVec.extractLsb'_append_eq_of_le (by decide)).trans BitVec.extractLsb'_append_eq_right

@[simp] theorem fieldArg_packFields (op : BitVec 4) (z : BitVec 7) (arg : BitVec 21) :
    fieldArg (packFields op z arg) = arg :=
  BitVec.extractLsb'_append_eq_right

/-- The three fields cover the word (30_encoding R65). -/
theorem packFields_fields (w : Word) : packFields (fieldOp w) (fieldZ w) (fieldArg w) = w := by
  rw [packFields, fieldOp, fieldZ, fieldArg, BitVec.extractLsb'_append_extractLsb'_eq_extractLsb' (by rfl),
    BitVec.extractLsb'_append_extractLsb'_eq_extractLsb' (by rfl), BitVec.extractLsb'_eq_self]

/-- The word of a command decodes to it (30_encoding R66). -/
theorem decode_encode (i : Instr) : decode (encode i) = .ok i := by
  cases i <;> simp [encode, decode, decodeOp]

/-- A command without an operand is spelled only with `ARG` = 0 (30_encoding R65). -/
theorem ok_of_noOperand {arg : BitVec 21} {i j : Instr}
    (h : (if arg = 0 then .ok j else .error (.nonzeroArg arg) : Except DecodeError Instr) = .ok i) :
    arg = 0 ∧ j = i := by
  split at h
  · exact ⟨‹_›, Except.ok.inj h⟩
  · cases h

/-- The command `OP` and `ARG` name has that `OP`, `Z` = 0 and that `ARG` in its word (30_encoding R66). -/
theorem encode_of_decodeOp {op : BitVec 4} {arg : BitVec 21} {i : Instr} (h : decodeOp op arg = .ok i) :
    encode i = packFields op 0 arg := by
  unfold decodeOp at h
  split at h
  case h_1 hop =>
    obtain rfl : op = 0x1 := BitVec.eq_of_toNat_eq hop
    cases h; rfl
  case h_2 hop =>
    obtain rfl : op = 0x2 := BitVec.eq_of_toNat_eq hop
    obtain ⟨rfl, rfl⟩ := ok_of_noOperand h; rfl
  case h_3 hop =>
    obtain rfl : op = 0x3 := BitVec.eq_of_toNat_eq hop
    obtain ⟨rfl, rfl⟩ := ok_of_noOperand h; rfl
  case h_4 hop =>
    obtain rfl : op = 0x8 := BitVec.eq_of_toNat_eq hop
    obtain ⟨rfl, rfl⟩ := ok_of_noOperand h; rfl
  case h_5 hop =>
    obtain rfl : op = 0x9 := BitVec.eq_of_toNat_eq hop
    obtain ⟨rfl, rfl⟩ := ok_of_noOperand h; rfl
  case h_6 => cases h

/-- The decoder takes a word to a command exactly when it is that command's word (30_encoding R65, R66). -/
theorem decode_eq_ok_iff {w : Word} {i : Instr} : decode w = .ok i ↔ encode i = w := by
  constructor
  · intro h
    unfold decode at h
    split at h
    · rename_i hz
      rw [encode_of_decodeOp h, ← hz, packFields_fields]
    · cases h
  · rintro rfl
    exact decode_encode i

/-- The mask of `ENC.FEED` keeps the fields `OP` and `Z` (30_encoding R66). -/
theorem fields_of_masked {w m : Word} (h : w &&& 0xFFE00000 = m) :
    fieldOp w = fieldOp m ∧ fieldZ w = fieldZ m := by
  subst h
  simp only [fieldOp, fieldZ, BitVec.extractLsb'_and]
  exact ⟨BitVec.and_allOnes.symm, BitVec.and_allOnes.symm⟩

/-- The row of `ENC.FEED`, the one row whose mask leaves out the operand (30_encoding R66, R67). -/
theorem decode_eq_encFeed_iff {w : Word} {cp : Codepoint} :
    decode w = .ok (.encFeed cp) ↔ w &&& 0xFFE00000 = 0x10000000 ∧ cp = fieldArg w := by
  rw [decode_eq_ok_iff]
  constructor
  · rintro rfl
    exact ⟨EncodingRow.encFeed cp, (fieldArg_packFields 0x1 0 cp).symm⟩
  · rintro ⟨hrow, rfl⟩
    obtain ⟨hop, hz⟩ := fields_of_masked hrow
    calc encode (.encFeed (fieldArg w))
        = packFields (fieldOp w) (fieldZ w) (fieldArg w) := by rw [hop, hz]; rfl
      _ = w := packFields_fields w

/-- A row whose mask is the whole word is spelled by its match alone (30_encoding R66). -/
theorem decode_eq_ok_iff_of_fullMask {i : Instr} (hmask : rowMask i = BitVec.allOnes 32)
    (hrow : EncodingRow.Statement i) {w : Word} : decode w = .ok i ↔ w &&& rowMask i = rowMatch i := by
  unfold EncodingRow.Statement at hrow
  rw [decode_eq_ok_iff, ← hrow, hmask, BitVec.and_allOnes, BitVec.and_allOnes, eq_comm]

/-- A port takes the commands of its own rows and no other (30_encoding R66, R68). -/
theorem decodeAt_eq_some_iff {p : Port} {w : Word} {i : Instr} :
    decodeAt p w = some i ↔ decode w = .ok i ∧ portOf i = p := by
  unfold decodeAt
  cases decode w with
  | error e => simp
  | ok j =>
    simp only [Option.ite_none_right_eq_some, Option.some.injEq, Except.ok.injEq, and_comm (b := j = i)]
    exact and_congr_right fun hji => by rw [hji]

/-- `ENC`'s port is the port of every command but `DEC.NEXT` and `DEC.RST` (30_encoding R64, R66). -/
theorem portOf_eq_iff {p : Port} {i : Instr} : portOf i = p ↔ (p = .enc ↔ i ≠ .decNext ∧ i ≠ .decRst) := by
  cases i <;> cases p <;> simp [portOf]

/-- Settles O2: the row of `ENC.FEED` through the fields its mask keeps, the other four as rows whose mask is
the whole word, and the port through `decodeAt`. -/
theorem wordSpellsCommandByMatchAndMask : Obligations.WordSpellsCommandByMatchAndMask := by
  intro w
  exact ⟨fun cp => decode_eq_encFeed_iff,
    decode_eq_ok_iff_of_fullMask rfl EncodingRow.encFinish,
    decode_eq_ok_iff_of_fullMask rfl EncodingRow.encRst,
    decode_eq_ok_iff_of_fullMask rfl EncodingRow.decNext,
    decode_eq_ok_iff_of_fullMask rfl EncodingRow.decRst,
    fun p i => by rw [decodeAt_eq_some_iff, portOf_eq_iff]⟩

end Sys2Proof.Proofs

/-! The Alphabet Table a block is built on (40_alphabet R83): building a block is the check of conditions (a) to
(f), and the lookups read pair lists, so each condition on the pairs is one on the lookups. -/

namespace Sys2Proof.Proofs

open Sys2Proof.Machine Sys2Proof.Laws

/-- A pair list that is a function names no septet twice, and all its characters are scalar values
(40_alphabet R80). -/
theorem rowsAreFunction_iff {rows : List (Septet × Codepoint)} : rowsAreFunction rows = true ↔
    (rows.map (fun p => p.1)).Nodup ∧ ∀ p ∈ rows, isScalarValue p.2 = true := by
  simp [rowsAreFunction]

/-- The check of a table, condition by condition: R80 for each list, then R83 (a) to (f). -/
theorem alphabet_wellFormed_iff {a : Alphabet} : a.wellFormed = true ↔
    rowsAreFunction a.basic = true ∧ rowsAreFunction a.ext = true ∧
    lutDecB a escape = none ∧
    (a.basic.map (fun p => p.2)).Nodup ∧ (a.ext.map (fun p => p.2)).Nodup ∧
    (∀ p ∈ a.basic, ∀ q ∈ a.ext, p.2 ≠ q.2) ∧
    a.ext.length < 128 ∧
    lutDecB a 0x54 = some 0x54 ∧ lutDecB a 0x74 = some 0x74 := by
  simp only [Alphabet.wellFormed, Alphabet.escapeReserved, rowsInjective, Alphabet.disjoint, Alphabet.fixture,
    Bool.and_eq_true, decide_eq_true_eq, List.all_eq_true, bne_iff_ne, beq_iff_eq, Option.isNone_iff_eq_none,
    and_assoc]

/-- A block is built on a configuration exactly when it is well formed, and is that configuration
(40_alphabet R83, 93 U5). -/
theorem build_eq_some_iff {c d : Config} : Config.build c = some d ↔ c.wellFormed = true ∧ d = c := by
  simp only [Config.build, Option.ite_none_right_eq_some, Option.some.injEq, eq_comm (a := d)]

/-- The table of a well-formed configuration is well formed. -/
theorem alphabet_wellFormed_of_config {c : Config} (h : c.wellFormed = true) : c.alphabet.wellFormed = true := by
  simp only [Config.wellFormed, Bool.and_eq_true, and_assoc] at h
  exact h.1

/-- A table that names no septet and no character twice is read injectively (40_alphabet R83 (b), (c)). -/
theorem romAt_injective {rows : List (Septet × Codepoint)} (hf : rowsAreFunction rows = true)
    (hn : (rows.map (fun p => p.2)).Nodup) {x y : Septet} {cp : Codepoint}
    (hx : romAt rows x = some cp) (hy : romAt rows y = some cp) : x = y := by
  obtain ⟨hs, -⟩ := rowsAreFunction_iff.mp hf
  exact nodup_val hn ((romAt_iff hs x cp).mp hx) ((romAt_iff hs y cp).mp hy)

/-- Tables without a common character decode no two septets to one character (40_alphabet R83 (d)). -/
theorem lutDecX_ne_of_lutDecB {a : Alphabet} (hb : rowsAreFunction a.basic = true)
    (he : rowsAreFunction a.ext = true) (hd : ∀ p ∈ a.basic, ∀ q ∈ a.ext, p.2 ≠ q.2) {x y : Septet}
    {cp : Codepoint} (hx : lutDecB a x = some cp) : lutDecX a y ≠ some cp := by
  intro hy
  obtain ⟨hbs, -⟩ := rowsAreFunction_iff.mp hb
  obtain ⟨hes, -⟩ := rowsAreFunction_iff.mp he
  exact hd (x, cp) ((romAt_iff hbs x cp).mp hx) (y, cp) ((romAt_iff hes y cp).mp hy) rfl

/-- The default tables meet R83 (a) to (f). -/
theorem defaultAlphabet_wellFormed : defaultAlphabet.wellFormed = true := by
  decide +kernel

/-- This hardware's block is built (00_scope R4). -/
theorem build_gsm7Core : Config.build Config.gsm7Core = some Config.gsm7Core :=
  build_eq_some_iff.mpr ⟨by simp [Config.wellFormed, Config.gsm7Core, defaultAlphabet_wellFormed], rfl⟩

/-- Settles O27: a built block passed the check, whose conditions on the pair lists are carried over to the
lookups; the default tables pass it. -/
theorem buildRefusesIllFormedTables : Obligations.BuildRefusesIllFormedTables := by
  refine ⟨⟨build_gsm7Core, rfl, rfl⟩, fun c d hbuild => ?_⟩
  obtain ⟨hwf, hdc⟩ := build_eq_some_iff.mp hbuild
  obtain ⟨hb, he, hescape, hbInj, heInj, hdisjoint, hsparse, hT, ht⟩ :=
    alphabet_wellFormed_iff.mp (alphabet_wellFormed_of_config hwf)
  exact ⟨hdc, hescape, fun _ _ _ => romAt_injective hb hbInj, fun _ _ _ => romAt_injective he heInj,
    fun _ _ _ => lutDecX_ne_of_lutDecB hb he hdisjoint, hsparse, hT, ht⟩

end Sys2Proof.Proofs

/-! The encoder's rows of the table of states (42_encoder R120 to R123): what each command answers, from the
inversions of the packing engine. -/

namespace Sys2Proof.Proofs

open Sys2Proof.Machine Sys2Proof.Laws

/-- A `CLOSED` encoder refuses a feed (42_encoder R120). -/
theorem encFeed_of_closed {c : Config} {cp : Codepoint} {e : Enc} (hst : e.st = .closed) :
    encFeed c cp e = (e, encoderClosed cp) := by
  simp [encFeed, hst]

/-- A `CLOSED` encoder refuses a finish (42_encoder R121). -/
theorem encFinish_of_closed {c : Config} {e : Enc} (hst : e.st = .closed) :
    encFinish c e = (e, encoderClosed 0) := by
  simp [encFinish, hst]

/-- A character has no septet form exactly when the reverse lookup finds it in neither table (40_alphabet R86). -/
theorem septetForm_eq_none_iff {a : Alphabet} {cp : Codepoint} : septetForm a cp = none ↔ lutEnc a cp = none := by
  unfold septetForm
  rcases lutEnc a cp with _ | ⟨_ | _, x⟩ <;> simp

/-- An `OPEN` encoder refuses a character of neither table (42_encoder R120). -/
theorem encFeed_of_unsupported {c : Config} {cp : Codepoint} {e : Enc} (hst : e.st = .opened)
    (hform : septetForm c.alphabet cp = none) : encFeed c cp e = (e, unsupportedCharacter cp) := by
  simp [encFeed, hst, septetForm_eq_none_iff.mp hform]

/-- An `OPEN` encoder packs the septet form of a character of the tables (42_encoder R120). -/
theorem encFeed_of_form {c : Config} {cp : Codepoint} {form : List Septet} {e : Enc} (hst : e.st = .opened)
    (hform : septetForm c.alphabet cp = some form) :
    encFeed c cp e = ((packAll c form e).2, packResponse (packAll c form e).1) := by
  rcases encFeed_cases c cp e with ⟨hclosed, -⟩ | ⟨-, hnone, -⟩ | ⟨l, -, hl, -, -, -, heq⟩
  · rw [hst] at hclosed; cases hclosed
  · rw [septetForm_eq_none_iff.mpr hnone] at hform; cases hform
  · rw [hform] at hl; cases hl; exact heq

/-- Where the transfer after `q` accepted ones fails and the form completes more than `q` octets, packing ends in
that failure and closes the encoder (20_memory R51, 41_bit_engine R100). -/
theorem packAll_of_failsAfter {c : Config} {w : Word} {l : List Septet} : ∀ {e : Enc} {q : Nat},
    e.acc.toNat < 2 ^ e.k.toNat → q < octetCount e.k l.length → failsAfter c.ioFail.sink e.writes q w →
    ∃ e1, packAll c l e = (some w, e1) ∧ e1.st = .closed := by
  induction l with
  | nil =>
    intro e q _ hq _
    have := e.k.isLt
    simp only [octetCount, List.length_nil] at hq
    omega
  | cons s l ih =>
    intro e q hacc hq hfails
    simp only [octetCount, List.length_cons] at hq
    rcases packPut_cases c s e hacc with ⟨hk, hput⟩ | ⟨-, w', hw', hput⟩ | ⟨hk, hok, o, a, hput, -, ha, -⟩
    · have hk0 : e.k.toNat = 0 := by rw [hk]; rfl
      rw [packAll_cons_ok hput]
      exact ih s.isLt (by simp only [octetCount, BitVec.reduceToNat]; omega) hfails
    · cases q with
      | zero =>
        obtain rfl : w' = w := Option.some.inj (hw'.symm.trans (failsAfter_zero hfails))
        exact ⟨_, packAll_cons_fail hput, rfl⟩
      | succ q => exact absurd ((failsAfter_succ hfails).1.symm.trans hw') (by simp)
    · have hrange := k_ne hk
      have hk1 : (BitVec.ofNat 3 (e.k.toNat - 1)).toNat = e.k.toNat - 1 := by
        simp only [BitVec.toNat_ofNat]
        omega
      rw [packAll_cons_ok hput]
      cases q with
      | zero => exact absurd (hok.symm.trans (failsAfter_zero hfails)) (by simp)
      | succ q =>
        exact ih (by simpa only [hk1] using ha) (by simp only [octetCount, hk1]; omega) (failsAfter_succ hfails).2

/-- A feed whose completed octets are all accepted (42_encoder R120). -/
theorem encFeed_of_accepts {c : Config} {cp : Codepoint} {form : List Septet} {e : Enc} (hst : e.st = .opened)
    (hacc : e.acc.toNat < 2 ^ e.k.toNat) (hform : septetForm c.alphabet cp = some form)
    (hok : accepts c.ioFail.sink e.writes (octetCount e.k form.length)) :
    encFeed c cp e = (afterPacking e form, okNone) := by
  rw [encFeed_of_form hst hform, packAll_arith c form e hacc hok]; rfl

/-- A feed one of whose completed octets the platform fails (20_memory R51). -/
theorem encFeed_of_failsAfter {c : Config} {cp : Codepoint} {form : List Septet} {e : Enc} {q : Nat} {w : Word}
    (hst : e.st = .opened) (hacc : e.acc.toNat < 2 ^ e.k.toNat) (hform : septetForm c.alphabet cp = some form)
    (hq : q < octetCount e.k form.length) (hfails : failsAfter c.ioFail.sink e.writes q w) :
    ∃ e1, encFeed c cp e = (e1, underlyingIOFailure w) ∧ e1.st = .closed := by
  obtain ⟨e1, hpack, hclosed⟩ := packAll_of_failsAfter hacc hq hfails
  exact ⟨e1, by rw [encFeed_of_form hst hform, hpack]; rfl, hclosed⟩

/-- A finish whose octet, if there is one, is accepted (42_encoder R121). -/
theorem encFinish_of_accepts {c : Config} {e : Enc} (hst : e.st = .opened)
    (hok : e.k ≠ 0 → failureAt c.ioFail.sink e.writes = none) :
    encFinish c e = (closeEnc (packFlush c e).2, okNone) := by
  rcases packFlush_cases c e with ⟨-, hflush⟩ | ⟨hk, w, hw, -⟩ | ⟨-, -, hflush⟩
  · simp [encFinish, hst, hflush]
  · exact absurd ((hok hk).symm.trans hw) (by simp)
  · simp [encFinish, hst, hflush]

/-- A finish whose octet the platform fails (20_memory R51, 42_encoder R121). -/
theorem encFinish_of_fails {c : Config} {e : Enc} {w : Word} (hst : e.st = .opened) (hk : e.k ≠ 0)
    (hw : failureAt c.ioFail.sink e.writes = some w) :
    encFinish c e = (sinkFailed e.writes { e with writes := e.writes + 1 }, underlyingIOFailure w) := by
  rcases packFlush_cases c e with ⟨hk0, -⟩ | ⟨-, w', hw', hflush⟩ | ⟨-, hnone, -⟩
  · exact absurd hk0 hk
  · obtain rfl : w' = w := Option.some.inj (hw'.symm.trans hw)
    simp [encFinish, hst, hflush]
  · exact absurd (hnone.symm.trans hw) (by simp)

/-- A feed records what `encFeed` answers (30_encoding R64). -/
theorem execIn_encFeed_of_eq {c : Config} {cp : Codepoint} {s : State} {p : Enc × Response}
    (h : encFeed c cp s.enc = p) : execIn c (.encFeed cp) s = .next (answerEnc s p) := by
  subst h; rfl

/-- A finish records what `encFinish` answers (30_encoding R64). -/
theorem execIn_encFinish_of_eq {c : Config} {s : State} {p : Enc × Response}
    (h : encFinish c s.enc = p) : execIn c .encFinish s = .next (answerEnc s p) := by
  subst h; rfl

/-- A word that is no command of `ENC`'s port is answered and nothing else (30_encoding R68). -/
theorem stepIn_of_illegal_enc {c : Config} {s : State} {w : Word} {rest : List HostEvent}
    (hpending : s.pending = .encCommand w :: rest) (hw : decodeAt .enc w = none) :
    stepIn c s = .next (answerIllegal .enc w { s with pending := rest }) := by
  simp only [stepIn, fetch, hpending, fetchWord, hw]

/-- Settles O21: row by row, each from what the command answers under the row's condition; the invariant is used
where bits are packed, for the held bits to fit `ENC.K`. -/
theorem encoderStatesFollowTheTable : Obligations.EncoderStatesFollowTheTable := by
  intro c s cp form hinv
  have hacc : s.enc.st = .opened → s.enc.acc.toNat < 2 ^ s.enc.k.toNat := by
    intro hst
    simp only [encInv, hst] at hinv
    exact hinv.1
  refine ⟨?feed, ?unsupported, ?finish, ?feedFails, ?finishFails, ?feedClosed, ?finishClosed, ?reset, ?illegal⟩
  case feed =>
    exact fun hst hform hok =>
      ⟨_, execIn_encFeed_of_eq (encFeed_of_accepts hst (hacc hst) hform hok), hst, rfl⟩
  case unsupported =>
    exact fun hst hform => ⟨_, execIn_encFeed_of_eq (encFeed_of_unsupported hst hform), hst, rfl⟩
  case finish =>
    exact fun hst hok => ⟨_, execIn_encFinish_of_eq (encFinish_of_accepts hst hok), rfl, rfl⟩
  case feedFails =>
    intro q w hst hform hq hfails
    obtain ⟨e1, hfeed, hclosed⟩ := encFeed_of_failsAfter hst (hacc hst) hform hq hfails
    exact ⟨_, execIn_encFeed_of_eq hfeed, hclosed, rfl⟩
  case finishFails =>
    exact fun w hst hk hw => ⟨_, execIn_encFinish_of_eq (encFinish_of_fails hst hk hw), rfl, rfl⟩
  case feedClosed =>
    exact fun hst => ⟨_, execIn_encFeed_of_eq (encFeed_of_closed hst), hst, rfl⟩
  case finishClosed =>
    exact fun hst => ⟨_, execIn_encFinish_of_eq (encFinish_of_closed hst), hst, rfl⟩
  case reset => exact ⟨_, rfl, rfl, rfl⟩
  case illegal => exact fun w rest hpending hw => ⟨_, stepIn_of_illegal_enc hpending hw, rfl, rfl⟩

/-- A command that takes `ENC` out of `CLOSED` is `ENC.RST`: the others of its port refuse, and those of the other
port do not write it (42_encoder R122). -/
theorem eq_encRst_of_leaves_closed {c : Config} {i : Instr} {s t : State} (hst : s.enc.st = .closed)
    (ht : execIn c i s = .next t) (hopen : t.enc.st = .opened) : i = .encRst := by
  have stays : t.enc = s.enc → i = .encRst := by
    intro h
    rw [h, hst] at hopen
    cases hopen
  cases i with
  | encFeed cp =>
    rw [execIn_encFeed_of_eq (encFeed_of_closed hst)] at ht
    cases ht
    exact stays rfl
  | encFinish =>
    rw [execIn_encFinish_of_eq (encFinish_of_closed hst)] at ht
    cases ht
    exact stays rfl
  | encRst => rfl
  | decNext => exact stays (dec_enc_frame rfl ht).1
  | decRst => exact stays (dec_enc_frame rfl ht).1

/-- Settles O18: the next state by the definition of `ENC.RST`, the way out of `CLOSED` command by command, and
the word by the row of the opcode map. -/
theorem encoderResetIsFresh : Obligations.EncoderResetIsFresh := by
  refine ⟨fun _ => rfl, fun i s t hst ht hopen => ?_, fun w => ?_⟩
  · rw [exec_eq] at ht
    exact eq_encRst_of_leaves_closed hst ht hopen
  · exact decode_eq_ok_iff_of_fullMask rfl EncodingRow.encRst

end Sys2Proof.Proofs

/-! Forward only (42_encoder R124): the sink is only ever written at its end, from the one transfer up to a run. -/

namespace Sys2Proof.Proofs

open Sys2Proof.Machine Sys2Proof.Laws

/-- `SinkWrite` appends, or leaves the sink (20_memory R42). -/
theorem sinkWrite_sink_prefix {c : Config} {v : Octet} {e : Enc} {p : Option Word × Enc}
    (h : sinkWrite c v e = p) : e.sink <+: p.2.sink := by
  subst h
  rcases sinkWrite_cases c v e with ⟨-, hw⟩ | ⟨w, -, hw⟩
  · rw [hw]; exact List.prefix_append _ _
  · rw [hw]

/-- `PackPut` writes the sink by its one transfer, whatever the held bits are (41_bit_engine R100). -/
theorem packPut_sink_prefix {c : Config} {s : Septet} {e : Enc} {p : Option Word × Enc}
    (h : packPut c s e = p) : e.sink <+: p.2.sink := by
  subst h
  unfold packPut
  split
  · dsimp only
    split
    case h_1 hw => exact (sinkWrite_sink_prefix hw :)
    case h_2 hw => exact (sinkWrite_sink_prefix hw :)
  · exact List.prefix_refl _

/-- Packing a form only appends (41_bit_engine R100). -/
theorem packAll_sink_prefix (c : Config) (l : List Septet) (e : Enc) : e.sink <+: (packAll c l e).2.sink := by
  induction l generalizing e with
  | nil => exact List.prefix_refl _
  | cons s l ih =>
    rcases hput : packPut c s e with ⟨_ | w, e1⟩
    · rw [packAll_cons_ok hput]
      exact (packPut_sink_prefix hput).trans (ih e1)
    · rw [packAll_cons_fail hput]
      exact packPut_sink_prefix hput

/-- A flush only appends (41_bit_engine R101). -/
theorem packFlush_sink_prefix {c : Config} {e : Enc} {p : Option Word × Enc} (h : packFlush c e = p) :
    e.sink <+: p.2.sink := by
  subst h
  rcases packFlush_cases c e with ⟨-, h⟩ | ⟨-, w, -, h⟩ | ⟨-, -, h⟩
  · rw [h]
  · rw [h]; exact List.prefix_refl _
  · rw [h]; exact List.prefix_append _ _

/-- A feed only appends (42_encoder R120). -/
theorem encFeed_sink_prefix (c : Config) (cp : Codepoint) (e : Enc) : e.sink <+: (encFeed c cp e).1.sink := by
  rcases encFeed_cases c cp e with ⟨-, h⟩ | ⟨-, -, h⟩ | ⟨l, -, -, -, -, -, h⟩
  · rw [h]
  · rw [h]
  · rw [h]; exact packAll_sink_prefix c l e

/-- A finish only appends (42_encoder R121). -/
theorem encFinish_sink_prefix (c : Config) (e : Enc) : e.sink <+: (encFinish c e).1.sink := by
  unfold encFinish
  split
  · exact List.prefix_refl _
  · split
    · exact packFlush_sink_prefix ‹_›
    · exact packFlush_sink_prefix ‹_›

/-- A command other than `ENC.RST` only appends to the sink (42_encoder R124). -/
theorem execIn_sink_prefix {c : Config} {i : Instr} {s t : State} (hi : i ≠ .encRst)
    (ht : execIn c i s = .next t) : s.enc.sink <+: t.enc.sink := by
  cases i with
  | encFeed cp => cases ht; exact encFeed_sink_prefix c cp s.enc
  | encFinish => cases ht; exact encFinish_sink_prefix c s.enc
  | encRst => exact absurd rfl hi
  | decNext => rw [(dec_enc_frame rfl ht).1]
  | decRst => rw [(dec_enc_frame rfl ht).1]

/-- A step takes the oldest event off the list, and unless that event resets the encoder it only appends to the
sink (42_encoder R124; log 1). -/
theorem stepIn_pending_and_sink_prefix {c : Config} {s t : State} (ht : stepIn c s = .next t) :
    t.pending = s.pending.tail ∧
    ((∀ ev ∈ s.pending.head?, resetsEncoder ev = false) → s.enc.sink <+: t.enc.sink) := by
  rcases stepIn_cases c s with ⟨hp, h⟩ | ⟨src, rest, hp, h⟩ | ⟨w, rest, hp, -, h⟩ | ⟨w, src, rest, hp, -, h⟩ |
    ⟨w, rest, i, hp, hw, -, h⟩ | ⟨w, src, rest, i, hp, -, hport, h⟩ <;> rw [h] at ht <;> rw [hp]
  · cases ht
    exact ⟨hp, fun _ => List.prefix_refl _⟩
  · cases ht
    exact ⟨rfl, fun hno => absurd (hno _ rfl) (by simp [resetsEncoder])⟩
  · cases ht
    exact ⟨rfl, fun _ => List.prefix_refl _⟩
  · cases ht
    exact ⟨rfl, fun _ => List.prefix_refl _⟩
  · refine ⟨(execIn_pending ht).1, fun hno => execIn_sink_prefix (s := { s with pending := rest }) ?_ ht⟩
    rintro rfl
    exact absurd (hno _ rfl) (by simp [resetsEncoder, hw])
  · refine ⟨(execIn_pending ht).1, fun _ => ?_⟩
    rw [(dec_enc_frame hport ht).1]

/-- Settles O22, by induction on the number of steps: each step only appends, and leaves the events of the steps
after it. -/
theorem sinkOnlyGrowsUntilReset : Obligations.SinkOnlyGrowsUntilReset := by
  intro c n
  induction n with
  | zero =>
    intro s t _ ht
    cases ht
    exact List.prefix_refl _
  | succ n ih =>
    intro s t hno ht
    simp only [runIn] at ht
    cases hstep : stepIn c s with
    | fault f => cases f
    | refused r => simp [hstep] at ht
    | next s1 =>
      simp only [hstep] at ht
      obtain ⟨hpending, hgrows⟩ := stepIn_pending_and_sink_prefix hstep
      have hfirst : s.enc.sink <+: s1.enc.sink :=
        hgrows fun ev hev => hno ev (List.mem_of_mem_head? (by simpa [List.head?_take] using hev))
      refine hfirst.trans (ih s1 t (fun ev hev => hno ev ?_) ht)
      rw [hpending, ← List.drop_one, List.take_drop, Nat.add_comm] at hev
      exact List.mem_of_mem_drop hev

end Sys2Proof.Proofs

/-! The way out of `ENDED` and `FAILED` (43_decoder R140, R141): a decoder that is not in `RUN` repeats itself, and
`DEC.RST` makes it fresh on the source beside the command. -/

namespace Sys2Proof.Proofs

open Sys2Proof.Machine Sys2Proof.Laws

/-- No command of the encoder touches the decoder or its port (10_state R28). -/
theorem enc_dec_frame {c : Config} {i : Instr} {s t : State} (hp : portOf i = .enc)
    (ht : execIn c i s = .next t) : t.dec = s.dec ∧ t.decRsp = s.decRsp := by
  obtain ⟨f, hf⟩ := execIn_enc_of_enc_alone (c := c) hp
  rw [hf] at ht
  cases ht
  exact ⟨rfl, rfl⟩

/-- A pull records what `decNext` answers (30_encoding R64). -/
theorem execIn_decNext_of_ok {c : Config} {s : State} {p : Dec × Response} (h : decNext c s.dec = .ok p) :
    execIn c .decNext s = .next (answerDec s p) := by
  simp only [execIn, execDecNextIn, h]

/-- A decoder that is `ENDED` or `FAILED` answers a pull and stays as it is (43_decoder R140). -/
theorem decNext_of_not_run {c : Config} {d : Dec} (hst : d.st ≠ .run) : ∃ r, decNext c d = .ok (d, r) := by
  unfold decNext
  split
  · exact ⟨_, rfl⟩
  · exact ⟨_, rfl⟩
  · exact absurd ‹_› hst

/-- A pull in `RUN` that takes a septet of the basic table answers its character (43_decoder R140). -/
theorem decNext_of_basic {c : Config} {d d1 : Dec} {x : Septet} {cp : Codepoint} (hst : d.st = .run)
    (hacc : d.acc.toNat < 2 ^ d.r.toNat) (hpos : d.pos.toNat + 1 < 2 ^ c.posW) (htake : takesSeptet c d x d1)
    (hx : x ≠ escape) (hcp : lutDecB c.alphabet x = some cp) : decNext c d = .ok (d1, okChar cp) := by
  simp only [decNext, hst, decRun, unpackGet_of_takes hacc htake, count_ok (takes_pos htake) hpos, if_neg hx,
    resolve, hcp]

/-- A command that takes `DEC` to `RUN` from `ENDED` or `FAILED` is `DEC.RST`: a pull leaves the decoder there, and
the commands of the other port do not write it (43_decoder R141). -/
theorem eq_decRst_of_returns_to_run {c : Config} {i : Instr} {s t : State} (hst : s.dec.st ≠ .run)
    (ht : execIn c i s = .next t) (hrun : t.dec.st = .run) : i = .decRst := by
  have stays : t.dec = s.dec → i = .decRst := fun h => absurd (h ▸ hrun) hst
  cases i with
  | encFeed cp => exact stays (enc_dec_frame rfl ht).1
  | encFinish => exact stays (enc_dec_frame rfl ht).1
  | encRst => exact stays (enc_dec_frame rfl ht).1
  | decNext =>
    obtain ⟨r, hr⟩ := decNext_of_not_run (c := c) hst
    rw [execIn_decNext_of_ok hr] at ht
    cases ht
    exact stays rfl
  | decRst => rfl

/-- The rule's example (43_decoder R141): made fresh on the octet 0x80, `DEC` takes septet 0x00 at its first pull
and answers U+0040. -/
theorem decNext_freshDec_80 (d : Dec) :
    ∃ d1, decNext Config.gsm7Core (freshDec [0x80] d) = .ok (d1, okChar 0x40) := by
  obtain ⟨d1, htake⟩ : ∃ d1, takesSeptet Config.gsm7Core (freshDec [0x80] d) 0x00 d1 :=
    ⟨_, .inr ⟨by simp, by simp, 0x80, rfl, by simp, rfl⟩⟩
  exact ⟨d1, decNext_of_basic rfl (by simp) (by simp) htake (by decide) (by decide)⟩

/-- Settles O39: the next state by the definition of `DEC.RST`, the way out of `ENDED` and `FAILED` command by
command, the word by the row of the opcode map, and the example by a pull of the fresh decoder. -/
theorem decoderResetBindsTheSource : Obligations.DecoderResetBindsTheSource := by
  refine ⟨fun _ => rfl, fun i s t hst ht hrun => ?leaves, fun w => ?word, fun s _ hsrc => ?pulls⟩
  case leaves =>
    rw [exec_eq] at ht
    exact eq_decRst_of_returns_to_run hst ht hrun
  case word => exact decode_eq_ok_iff_of_fullMask rfl EncodingRow.decRst
  case pulls =>
    obtain ⟨d1, hpull⟩ := decNext_freshDec_80 s.dec
    rw [← hsrc] at hpull
    refine ⟨_, answerDec (answerDec s (decRst s.srcIn s.dec)) (d1, okChar 0x40), rfl, rfl, rfl, ?_, ?_⟩
    · rw [exec_eq]
      exact execIn_decNext_of_ok hpull
    · simp [decRst]

end Sys2Proof.Proofs

/-! The error responses of 60_exceptions R161 and R165: the encoder refuses a command and only the response is
added. -/

namespace Sys2Proof.Proofs

open Sys2Proof.Machine Sys2Proof.Laws

/-- `RSP0` of an error as a number: its code in bits 31:28, what it carries in bits 20:0 (30_encoding R69). -/
theorem rsp0_raise_toNat (status : Status) (val : BitVec 21) (aux : Word) :
    (rsp0 (raise status val aux)).toNat = 2 ^ 28 * (statusCode status).toNat + val.toNat := by
  simp only [rsp0, raise, kindCode, BitVec.toNat_append, BitVec.ofNat_eq_ofNat, BitVec.toNat_ofNat, Nat.zero_mod,
    Nat.or_zero]
  rw [← Nat.shiftLeft_add_eq_or_of_lt val.isLt]
  simp only [Nat.shiftLeft_eq]
  omega

/-- `RSP0` of an error as a word (30_encoding R69). -/
theorem rsp0_raise (status : Status) (val : BitVec 21) (aux : Word) :
    rsp0 (raise status val aux) = BitVec.ofNat 32 (2 ^ 28 * (statusCode status).toNat) + val.setWidth 32 := by
  apply BitVec.eq_of_toNat_eq
  have hcode := (statusCode status).isLt
  have hval := val.isLt
  rw [rsp0_raise_toNat, BitVec.toNat_add, BitVec.toNat_ofNat, BitVec.toNat_setWidth]
  omega

/-- A character that no septet of a well-formed table decodes to has no septet form (40_alphabet R86). -/
theorem septetForm_eq_none_of_undecoded {a : Alphabet} {cp : Codepoint} (hwf : a.wellFormed = true)
    (hundecoded : ∀ x, lutDecB a x ≠ some cp ∧ lutDecX a x ≠ some cp) : septetForm a cp = none := by
  obtain ⟨hb, he, -, hbInj, heInj, -⟩ := alphabet_wellFormed_iff.mp hwf
  rcases lutEnc_cases a hbInj heInj cp with ⟨x, -, hmem⟩ | ⟨x, -, hmem, -⟩ | ⟨hnone, -⟩
  · exact absurd ((romAt_iff (rowsAreFunction_iff.mp hb).1 x cp).mpr hmem) (hundecoded x).1
  · exact absurd ((romAt_iff (rowsAreFunction_iff.mp he).1 x cp).mpr hmem) (hundecoded x).2
  · exact septetForm_eq_none_iff.mpr hnone

/-- `ENC.FEED` of a character of neither table adds its response and nothing else (60_exceptions R161). -/
theorem execIn_encFeed_of_unsupported {c : Config} {cp : Codepoint} {s : State} (hst : s.enc.st = .opened)
    (hform : septetForm c.alphabet cp = none) :
    execIn c (.encFeed cp) s = .next { s with encRsp := s.encRsp ++ [unsupportedCharacter cp] } :=
  execIn_encFeed_of_eq (encFeed_of_unsupported hst hform)

/-- Settles O14: a character that no septet decodes to has no septet form, and is refused for that; the words by
the fields of `RSP0`, and the example by its lookup. -/
theorem unsupportedCharacterChangesNoState : Obligations.UnsupportedCharacterChangesNoState := by
  refine ⟨fun s cp hst hundecoded => ?_, fun cp => ⟨rsp0_raise _ cp 0, rfl⟩, ?_⟩
  · rw [exec_eq]
    exact execIn_encFeed_of_unsupported hst (septetForm_eq_none_of_undecoded defaultAlphabet_wellFormed hundecoded)
  · rw [exec_eq]
    exact execIn_encFeed_of_unsupported rfl (by decide)

/-- Settles O15: both commands by what a `CLOSED` encoder answers, which leaves it as it is. -/
theorem closedEncoderRefuses : Obligations.ClosedEncoderRefuses := by
  intro s hst
  refine ⟨fun cp => ?_, ?_, by decide, by decide, fun _ => rfl⟩
  · rw [exec_eq]
    exact execIn_encFeed_of_eq (encFeed_of_closed hst)
  · rw [exec_eq]
    exact execIn_encFinish_of_eq (encFinish_of_closed hst)

end Sys2Proof.Proofs

/-! The decoding errors of 60_exceptions R162 and R163: a pull in `RUN` raises where the table does not define the
septet it took, or where the source ends right after an escape. -/

namespace Sys2Proof.Proofs

open Sys2Proof.Machine Sys2Proof.Laws

/-- A pull in `RUN` whose first septet the basic table does not define is `InvalidSeptet` there (60_exceptions
R162). -/
theorem decNext_of_undefined_basic {c : Config} {d d1 : Dec} {x : Septet} (hst : d.st = .run)
    (hacc : d.acc.toNat < 2 ^ d.r.toNat) (hpos : d.pos.toNat + 1 < 2 ^ c.posW) (htake : takesSeptet c d x d1)
    (hx : x ≠ escape) (hundefined : lutDecB c.alphabet x = none) :
    decNext c d = .ok (raiseDec .invalidSeptet (septetVal x) d.pos d1) := by
  simp only [decNext, hst, decRun, unpackGet_of_takes hacc htake, count_ok (takes_pos htake) hpos, if_neg hx,
    resolve, hundefined]

/-- A pull in `RUN` that takes the escape goes on with the septet after it (43_decoder R140). -/
theorem decNext_of_escape {c : Config} {d d1 : Dec} (hst : d.st = .run) (hacc : d.acc.toNat < 2 ^ d.r.toNat)
    (hpos : d.pos.toNat + 1 < 2 ^ c.posW) (htake : takesSeptet c d escape d1) :
    decNext c d = decEscaped c d.pos d1 := by
  simp only [decNext, hst, decRun, unpackGet_of_takes hacc htake, count_ok (takes_pos htake) hpos, if_true]

/-- A septet after the escape that the extension table does not define is `InvalidSeptet` at its own position
(60_exceptions R162). -/
theorem decEscaped_of_undefined {c : Config} {p : BitVec 32} {d d1 : Dec} {x : Septet}
    (hacc : d.acc.toNat < 2 ^ d.r.toNat) (hpos : d.pos.toNat + 1 < 2 ^ c.posW) (htake : takesSeptet c d x d1)
    (hundefined : lutDecX c.alphabet x = none) :
    decEscaped c p d = .ok (raiseDec .invalidSeptet (septetVal x) (p + 1) d1) := by
  simp only [decEscaped, unpackGet_of_takes hacc htake, count_ok (takes_pos htake) hpos, resolve, hundefined]

/-- The end of the source right after the escape is `DanglingEscape` at the escape's position (60_exceptions
R163). -/
theorem decEscaped_of_runsOut {c : Config} {p : BitVec 32} {d d1 : Dec} (hends : runsOut c d d1) :
    decEscaped c p d = .ok (raiseDec .danglingEscape (septetVal escape) p d1) := by
  simp only [decEscaped, unpackGet_of_runsOut hends]

/-- A septet taken below the last position moves `DEC.POS` by one (43_decoder R144). -/
theorem takes_pos_toNat {c : Config} {d d1 : Dec} {x : Septet} (hpos : d.pos.toNat + 1 < 2 ^ 32)
    (htake : takesSeptet c d x d1) : d1.pos.toNat = d.pos.toNat + 1 := by
  rw [takes_pos htake, BitVec.toNat_add]
  exact Nat.mod_eq_of_lt hpos

/-- A pull in `RUN` that takes the escape and then a septet the extension table does not define is
`InvalidSeptet` at the second septet, the cursor past both (60_exceptions R162). -/
theorem decNext_of_undefined_extension {c : Config} {d d1 d2 : Dec} {x : Septet} (hst : d.st = .run)
    (hacc : d.acc.toNat < 2 ^ d.r.toNat) (hpos : d.pos.toNat + 2 < 2 ^ c.posW) (hposW : c.posW ≤ 32)
    (hescape : takesSeptet c d escape d1) (htake : takesSeptet c d1 x d2)
    (hundefined : lutDecX c.alphabet x = none) :
    decNext c d = .ok (raiseDec .invalidSeptet (septetVal x) (d.pos + 1) d2) := by
  have hwidth : 2 ^ c.posW ≤ 2 ^ 32 := Nat.pow_le_pow_right (by decide) hposW
  have hpos1 : d1.pos.toNat = d.pos.toNat + 1 := takes_pos_toNat (by omega) hescape
  rw [decNext_of_escape hst hacc (by omega) hescape]
  exact decEscaped_of_undefined (takes_acc hacc hescape) (by omega) htake hundefined

/-- A pull in `RUN` that takes the escape and finds the source used up is `DanglingEscape` (60_exceptions
R163). -/
theorem decNext_of_dangling {c : Config} {d d1 d2 : Dec} (hst : d.st = .run) (hacc : d.acc.toNat < 2 ^ d.r.toNat)
    (hpos : d.pos.toNat + 1 < 2 ^ c.posW) (hescape : takesSeptet c d escape d1) (hends : runsOut c d1 d2) :
    decNext c d = .ok (raiseDec .danglingEscape (septetVal escape) d.pos d2) := by
  rw [decNext_of_escape hst hacc hpos hescape]
  exact decEscaped_of_runsOut hends

/-- The default basic table leaves out only the escape (30_encoding R63). -/
theorem defaultAlphabet_lutDecB_ne_none : ∀ x : Septet, x ≠ 0x1B → lutDecB defaultAlphabet x ≠ none := by
  decide +kernel

/-- The rule's example (60_exceptions R162): the octets 1B 00 are the escape and septet 0x00, which the default
extension table does not define. -/
theorem decNext_reset_1B_00 : ∃ d2, decNext Config.gsm7Core { Dec.reset with src := [0x1B, 0x00] } =
    .ok (raiseDec .invalidSeptet 0x00 1 d2) := by
  obtain ⟨d1, d2, hescape, htake⟩ : ∃ d1 d2,
      takesSeptet Config.gsm7Core { Dec.reset with src := [0x1B, 0x00] } escape d1 ∧
      takesSeptet Config.gsm7Core d1 0x00 d2 :=
    ⟨_, _, .inr ⟨by decide, rfl, 0x1B, rfl, by decide, rfl⟩, .inr ⟨by decide, rfl, 0x00, rfl, by decide, rfl⟩⟩
  exact ⟨d2, decNext_of_undefined_extension rfl (by decide) (by decide) (by decide) hescape htake (by decide)⟩

/-- The rule's example (60_exceptions R163): the octet 1B is the escape, and one bit is left. -/
theorem decNext_reset_1B : ∃ d2, decNext Config.gsm7Core { Dec.reset with src := [0x1B] } =
    .ok (raiseDec .danglingEscape 0x1B 0 d2) := by
  obtain ⟨d1, d2, hescape, hends⟩ : ∃ d1 d2,
      takesSeptet Config.gsm7Core { Dec.reset with src := [0x1B] } escape d1 ∧
      runsOut Config.gsm7Core d1 d2 :=
    ⟨_, _, .inr ⟨by decide, rfl, 0x1B, rfl, by decide, rfl⟩, by decide, rfl, rfl, rfl⟩
  exact ⟨d2, decNext_of_dangling rfl (by decide) (by decide) hescape hends⟩

/-- Settles O34: both causes by what a pull in `RUN` answers there, the remark on the default table entry by
entry, and the example by its two septets. -/
theorem invalidSeptetFailsTheDecoder : Obligations.InvalidSeptetFailsTheDecoder := by
  refine ⟨fun c d d1 x => decNext_of_undefined_basic, fun c d d1 d2 x => decNext_of_undefined_extension,
    defaultAlphabet_lutDecB_ne_none, ?_⟩
  obtain ⟨d2, hpull⟩ := decNext_reset_1B_00
  rw [exec_eq]
  exact ⟨_, raise .invalidSeptet 0x00 1, execIn_decNext_of_ok hpull, rfl, by decide, rfl⟩

/-- Settles O36: what a pull in `RUN` answers at an escape that nothing follows, recorded on `DEC`'s port, and the
example by its one septet. -/
theorem danglingEscapeFailsTheDecoder : Obligations.DanglingEscapeFailsTheDecoder := by
  constructor
  · intro s d1 d2 hst hacc hpos hescape hends
    rw [exec_eq]
    exact execIn_decNext_of_ok (decNext_of_dangling hst hacc hpos hescape hends)
  · obtain ⟨d2, hpull⟩ := decNext_reset_1B
    rw [exec_eq]
    exact ⟨_, raise .danglingEscape 0x1B 0, execIn_decNext_of_ok hpull, rfl, by decide, rfl⟩

end Sys2Proof.Proofs

/-! The reset values of 70_reset R191. A hardware reset leaves the fresh encoder, and the fresh decoder on the
bound source. -/

namespace Sys2Proof.Proofs

open Sys2Proof.Machine Sys2Proof.Laws

/-- Settles O9: the reset state by its definition; a hardware reset by the values of the fresh encoder and of the
fresh decoder it leaves. -/
theorem resetLeavesTheRuledValues : Obligations.ResetLeavesTheRuledValues := by
  refine ⟨rfl, rfl, rfl, rfl, rfl, rfl, rfl, rfl, rfl, rfl, rfl, rfl, rfl, fun s => ?_⟩
  rw [hardwareReset_enc, hardwareReset_dec]
  exact ⟨freshEnc_acc _, freshEnc_k _, freshEnc_st _, freshEnc_sink _, freshDec_acc _ _, freshDec_r _ _,
    freshDec_pos _ _, freshDec_st _ _, freshDec_err _ _, freshDec_rp _ _, freshDec_src _ _⟩

end Sys2Proof.Proofs

/-! Words on the ports (30_encoding R64 to R70): what a step does with the next host event, and the two words of a
response. -/

namespace Sys2Proof.Proofs

open Sys2Proof.Machine Sys2Proof.Laws

/-- Settles O1: `decode_eq_ok_iff`, the round trip through the three fields of the word. -/
theorem decodeAndEncodeAgree : Obligations.DecodeAndEncodeAgree :=
  fun _ _ => decode_eq_ok_iff

/-- Settles O3: the rows are fixed words, each read by its fields. -/
theorem writtenWordsDecode : Obligations.WrittenWordsDecode := by
  unfold Obligations.WrittenWordsDecode
  decide

/-- A word spells no command of a port exactly when every command it spells belongs to the other one (30_encoding
R68). -/
theorem decodeAt_eq_none_iff {p : Port} {w : Word} :
    decodeAt p w = none ↔ ∀ i, decode w = .ok i → portOf i ≠ p := by
  simp only [Option.eq_none_iff_forall_ne_some, ne_eq, decodeAt_eq_some_iff, not_and]

/-- A word that is no command of `DEC`'s port is answered and nothing else; its source stands at the source input
(30_encoding R68; log 3). -/
theorem stepIn_of_illegal_dec {c : Config} {s : State} {w : Word} {src : List Octet} {rest : List HostEvent}
    (hpending : s.pending = .decCommand w src :: rest) (hw : decodeAt .dec w = none) :
    stepIn c s = .next (answerIllegal .dec w { s with pending := rest, srcIn := src }) := by
  simp only [stepIn, fetch, hpending, fetchWord, hw]

/-- Settles O4: a word of the other port spells no command of this one, and such a word is answered and nothing
else. -/
theorem illegalWordChangesNothing : Obligations.IllegalWordChangesNothing := by
  intro s w src rest
  refine ⟨fun hother hpending => ?_, fun hother hpending => ?_, rsp0_raise .illegalCommand 0 w, rfl⟩
  · have hw : decodeAt .enc w = none := decodeAt_eq_none_iff.mpr fun i hi => by
      rcases hother i hi with rfl | rfl <;> simp [portOf]
    rw [step_eq, stepIn_of_illegal_enc hpending hw]
    rfl
  · have hw : decodeAt .dec w = none := decodeAt_eq_none_iff.mpr fun i hi hport => by
      simpa using (portOf_eq_iff.mp hport).mpr (hother i hi)
    rw [step_eq, stepIn_of_illegal_dec hpending hw]
    rfl

/-- Settles O5: the word is a command of its port, and the step on such a word is the command. -/
theorem stepRunsTheDecodedCommand : Obligations.StepRunsTheDecodedCommand := by
  intro s w i src rest hi
  refine ⟨fun hport hpending => ?_, fun hport hpending => ?_⟩
  · have hw : decodeAt .enc w = some i := decodeAt_eq_some_iff.mpr ⟨hi, hport⟩
    simp only [step, fetch, hpending, fetchWord, hw]
  · have hw : decodeAt .dec w = some i := decodeAt_eq_some_iff.mpr ⟨hi, hport⟩
    simp only [step, fetch, hpending, fetchWord, hw]

/-- Settles O6: nothing is fetched from an empty event list. -/
theorem idleStepLosesNothing : Obligations.IdleStepLosesNothing := by
  intro s hpending
  simp only [step, fetch, hpending]

/-- Settles O10: the step by the event it takes off the list, the two resets by their definitions. -/
theorem hardwareResetIsBothResets : Obligations.HardwareResetIsBothResets := by
  intro s src rest hpending
  refine ⟨hardwareReset { s with pending := rest, srcIn := src }, _, _, ?_, rfl, rfl, ?_⟩
  · simp only [step, fetch, hpending]
  · simp [encRst, decRst, sourceOperand]

/-- The fields of `RSP0` stand where 30_encoding R69 puts them. -/
theorem rsp0_fields (r : Response) :
    (rsp0 r).extractLsb' 28 4 = statusCode r.status ∧ (rsp0 r).extractLsb' 24 4 = kindCode r.kind ∧
    (rsp0 r).extractLsb' 21 3 = 0 ∧ (rsp0 r).extractLsb' 0 21 = r.val := by
  refine ⟨?_, ?_, ?_, BitVec.extractLsb'_append_eq_right⟩
  · exact (BitVec.extractLsb'_append_eq_of_le (by decide)).trans
      ((BitVec.extractLsb'_append_eq_of_le (by decide)).trans BitVec.extractLsb'_append_eq_left)
  · exact (BitVec.extractLsb'_append_eq_of_le (by decide)).trans
      ((BitVec.extractLsb'_append_eq_of_le (by decide)).trans BitVec.extractLsb'_append_eq_right)
  · exact (BitVec.extractLsb'_append_eq_of_le (by decide)).trans BitVec.extractLsb'_append_eq_right

/-- No two statuses have one number (60_exceptions R160). -/
theorem statusCode_injective : Function.Injective statusCode := by
  intro a b
  cases a <;> cases b <;> decide

/-- No two kinds have one number (30_encoding R69). -/
theorem kindCode_injective : Function.Injective kindCode := by
  intro a b
  cases a <;> cases b <;> decide

/-- The two words of a response determine it (30_encoding R69). -/
theorem response_eq_of_words {r r' : Response} (h0 : rsp0 r = rsp0 r') (h1 : rsp1 r = rsp1 r') : r = r' := by
  obtain ⟨hs, hk, -, hv⟩ := rsp0_fields r
  obtain ⟨hs', hk', -, hv'⟩ := rsp0_fields r'
  rw [h0] at hs hk hv
  have hstatus : r.status = r'.status := statusCode_injective (hs.symm.trans hs')
  have hkind : r.kind = r'.kind := kindCode_injective (hk.symm.trans hk')
  cases r
  cases r'
  simp_all [rsp1]

/-- `RSP0` of `OK/Char(cp)` (30_encoding R69). -/
theorem rsp0_okChar (cp : Codepoint) : rsp0 (okChar cp) = 0x01000000 + cp.setWidth 32 := by
  apply BitVec.eq_of_toNat_eq
  have hval := cp.isLt
  have hnumber : (rsp0 (okChar cp)).toNat = 8 <<< 21 ||| cp.toNat := by
    simp only [rsp0, okChar, statusCode, kindCode, BitVec.toNat_append, BitVec.ofNat_eq_ofNat, BitVec.reduceToNat]
    rfl
  rw [hnumber, ← Nat.shiftLeft_add_eq_or_of_lt hval, BitVec.toNat_add, BitVec.toNat_setWidth]
  simp only [BitVec.reduceToNat, Nat.reduceShiftLeft]
  omega

/-- Settles O8: the numbers by their tables, the fields by the places of an append, the words of the `OK` responses
by computing them, and the response back from its fields. -/
theorem responseWordsHoldEveryField : Obligations.ResponseWordsHoldEveryField := by
  refine ⟨⟨rfl, rfl, rfl, rfl, rfl, rfl, rfl⟩, ⟨rfl, rfl, rfl⟩, fun r => ?_,
    ⟨by decide, rfl, by decide, rfl, fun cp => ⟨rsp0_okChar cp, rfl⟩⟩, fun r r' => response_eq_of_words⟩
  obtain ⟨hstatus, hkind, hzero, hval⟩ := rsp0_fields r
  exact ⟨hstatus, hkind, hzero, hval, rfl⟩

end Sys2Proof.Proofs

/-! The invariant of 10_state R14, R20 and R21: every command keeps it, and so does every other host event. -/

namespace Sys2Proof.Proofs

open Sys2Proof.Machine Sys2Proof.Laws

/-! ### The encoder -/

/-- While `OPEN` the held bits fit `ENC.K`, and sink and held bits are whole septets (10_state R14). -/
theorem encInv_iff_of_opened {e : Enc} (hst : e.st = .opened) :
    encInv e ↔ e.acc.toNat < 2 ^ e.k.toNat ∧ (8 * e.sink.length + e.k.toNat) % 7 = 0 := by
  simp only [encInv, hst]

/-- When `CLOSED` nothing is held, or the free values of a failed transfer are (10_state R14; log 5). -/
theorem encInv_iff_of_closed {e : Enc} (hst : e.st = .closed) :
    encInv e ↔ (e.acc = 0 ∧ e.k = 0) ∨ ∃ n < e.writes, e.acc = Config.freeAcc n ∧ e.k = Config.freeK n := by
  simp only [encInv, hst]

/-- A fresh encoder meets the invariant (42_encoder R122). -/
theorem encInv_freshEnc (e : Enc) : encInv (freshEnc e) :=
  (encInv_iff_of_opened rfl).mpr ⟨by simp, by simp⟩

/-- Packing a form keeps the invariant of an `OPEN` encoder, whatever becomes of its transfers (41_bit_engine R100,
R103). -/
theorem encInv_packAll (c : Config) (l : List Septet) {e : Enc} (hst : e.st = .opened) (hinv : encInv e) :
    encInv (packAll c l e).2 := by
  obtain ⟨hacc, hwhole⟩ := (encInv_iff_of_opened hst).mp hinv
  rcases packAll_cases c l e hacc with ⟨e1, hpack, hacc1, hst1, -, hbits, -⟩ |
    ⟨w, e1, hpack, hst1, -, q, -, -, hwrites, hfreeAcc, hfreeK⟩
  · rw [hpack]
    exact (encInv_iff_of_opened (hst1.trans hst)).mpr ⟨hacc1, by omega⟩
  · rw [hpack]
    exact (encInv_iff_of_closed hst1).mpr (.inr ⟨e.writes + q, by omega, hfreeAcc, hfreeK⟩)

/-- `ENC.FEED` keeps the invariant (42_encoder R120). -/
theorem encInv_encFeed (c : Config) (cp : Codepoint) {e : Enc} (hinv : encInv e) :
    encInv (encFeed c cp e).1 := by
  rcases encFeed_cases c cp e with ⟨-, hfeed⟩ | ⟨-, -, hfeed⟩ | ⟨l, hst, -, -, -, -, hfeed⟩ <;> rw [hfeed]
  · exact hinv
  · exact hinv
  · exact encInv_packAll c l hst hinv

/-- With no bit held `ENC.ACC` is 0 (10_state R14). -/
theorem acc_eq_zero_of_k {e : Enc} (hk : e.k = 0) (hacc : e.acc.toNat < 2 ^ e.k.toNat) : e.acc = 0 :=
  lt_two_pow_zero (hk ▸ hacc)

/-- `ENC.FINISH` keeps the invariant (42_encoder R121). -/
theorem encInv_encFinish (c : Config) {e : Enc} (hinv : encInv e) : encInv (encFinish c e).1 := by
  cases hst : e.st with
  | closed => rwa [encFinish_of_closed hst]
  | opened =>
    obtain ⟨hacc, -⟩ := (encInv_iff_of_opened hst).mp hinv
    rcases packFlush_cases c e with ⟨hk, hflush⟩ | ⟨hk, w, hw, -⟩ | ⟨-, hok, hflush⟩
    · rw [encFinish_of_accepts hst (absurd hk), hflush]
      exact (encInv_iff_of_closed rfl).mpr (.inl ⟨acc_eq_zero_of_k hk hacc, hk⟩)
    · rw [encFinish_of_fails hst hk hw]
      exact (encInv_iff_of_closed rfl).mpr (.inr ⟨e.writes, Nat.lt_succ_self _, rfl, rfl⟩)
    · rw [encFinish_of_accepts hst fun _ => hok, hflush]
      exact (encInv_iff_of_closed rfl).mpr (.inl ⟨rfl, rfl⟩)

/-! ### What a pull can do -/

/-- The outcomes of `DEC.NEXT` in `RUN`, one constructor per branch of 43_decoder R140: `decRun_cases` with a name
for each case. -/
inductive Pull (c : Config) (d : Dec) : Except Refusal (Dec × Response) → Prop
  | basic {x : Septet} {d1 : Dec} {cp : Codepoint} (htake : takesSeptet c d x d1) (hx : x ≠ escape)
      (hpos : d.pos.toNat + 1 < 2 ^ c.posW) (hcp : lutDecB c.alphabet x = some cp) :
      Pull c d (.ok (d1, okChar cp))
  | undefinedBasic {x : Septet} {d1 : Dec} (htake : takesSeptet c d x d1) (hx : x ≠ escape)
      (hpos : d.pos.toNat + 1 < 2 ^ c.posW) (hundefined : lutDecB c.alphabet x = none) :
      Pull c d (.ok (raiseDec .invalidSeptet (septetVal x) d.pos d1))
  | extended {x : Septet} {d1 d2 : Dec} {cp : Codepoint} (hescape : takesSeptet c d escape d1)
      (hpos : d.pos.toNat + 1 < 2 ^ c.posW) (htake : takesSeptet c d1 x d2)
      (hpos1 : d1.pos.toNat + 1 < 2 ^ c.posW) (hcp : lutDecX c.alphabet x = some cp) :
      Pull c d (.ok (d2, okChar cp))
  | undefinedExtension {x : Septet} {d1 d2 : Dec} (hescape : takesSeptet c d escape d1)
      (hpos : d.pos.toNat + 1 < 2 ^ c.posW) (htake : takesSeptet c d1 x d2)
      (hpos1 : d1.pos.toNat + 1 < 2 ^ c.posW) (hundefined : lutDecX c.alphabet x = none) :
      Pull c d (.ok (raiseDec .invalidSeptet (septetVal x) (d.pos + 1) d2))
  | ends {d1 : Dec} (hends : runsOut c d d1) : Pull c d (.ok (endDec d1, okEnd))
  | dangles {d1 d2 : Dec} (hescape : takesSeptet c d escape d1) (hpos : d.pos.toNat + 1 < 2 ^ c.posW)
      (hends : runsOut c d1 d2) : Pull c d (.ok (raiseDec .danglingEscape (septetVal escape) d.pos d2))
  | fails {d1 : Dec} {w : Word} (hfails : readFails c d w d1) :
      Pull c d (.ok (raiseDec .underlyingIOFailure 0 w d1))
  | failsAfterEscape {d1 d2 : Dec} {w : Word} (hescape : takesSeptet c d escape d1)
      (hpos : d.pos.toNat + 1 < 2 ^ c.posW) (hfails : readFails c d1 w d2) :
      Pull c d (.ok (raiseDec .underlyingIOFailure 0 w d2))
  | overflows {x : Septet} {d1 : Dec} (htake : takesSeptet c d x d1) (hlast : ¬ d.pos.toNat + 1 < 2 ^ c.posW) :
      Pull c d (.error .positionOverflow)
  | overflowsAfterEscape {x : Septet} {d1 d2 : Dec} (hescape : takesSeptet c d escape d1)
      (htake : takesSeptet c d1 x d2) (hlast : ¬ d1.pos.toNat + 1 < 2 ^ c.posW) :
      Pull c d (.error .positionOverflow)

/-- A pull in `RUN` does one of the things `Pull` lists (43_decoder R140). -/
theorem decRun_pull (c : Config) (d : Dec) (hacc : d.acc.toNat < 2 ^ d.r.toNat) : Pull c d (decRun c d) := by
  rcases decRun_cases c d hacc with ⟨x, d1, cp, htake, hx, hpos, hcp, h⟩ | ⟨x, d1, htake, hx, hpos, hnone, h⟩ |
    ⟨x, d1, d2, cp, hescape, htake, hpos, hpos1, hcp, h⟩ | ⟨x, d1, d2, hescape, htake, hpos, hpos1, hnone, h⟩ |
    ⟨d1, hends, h⟩ | ⟨d1, d2, hescape, hpos, hends, h⟩ | ⟨d1, w, hfails, h⟩ |
    ⟨d1, d2, w, hescape, hpos, hfails, h⟩ | ⟨x, d1, htake, hlast, h⟩ | ⟨x, d1, d2, hescape, htake, hlast, h⟩ <;>
    rw [h]
  · exact .basic htake hx hpos hcp
  · exact .undefinedBasic htake hx hpos hnone
  · exact .extended hescape hpos htake hpos1 hcp
  · exact .undefinedExtension hescape hpos htake hpos1 hnone
  · exact .ends hends
  · exact .dangles hescape hpos hends
  · exact .fails hfails
  · exact .failsAfterEscape hescape hpos hfails
  · exact .overflows htake hlast
  · exact .overflowsAfterEscape hescape htake hlast

/-- A pull in `RUN` is `decRun` (43_decoder R140). -/
theorem decNext_of_run {c : Config} {d : Dec} (hst : d.st = .run) : decNext c d = decRun c d := by
  simp only [decNext, hst]

/-- `Pull` for `DEC.NEXT` with its outcome known (43_decoder R140). -/
theorem pull_of_decNext {c : Config} {d : Dec} {o : Except Refusal (Dec × Response)} (hst : d.st = .run)
    (hacc : d.acc.toNat < 2 ^ d.r.toNat) (hnext : decNext c d = o) : Pull c d o := by
  rw [← hnext, decNext_of_run hst]
  exact decRun_pull c d hacc

/-! ### The decoder -/

/-- The part of the invariant that speaks of `DEC` (10_state R20, R21). -/
def decInv (d : Dec) : Prop := cursorInv d ∧ statusInv d

/-- The invariant is the encoder's and the decoder's. -/
theorem inv_iff {s : State} : Inv s ↔ encInv s.enc ∧ decInv s.dec := Iff.rfl

/-- A fresh decoder meets the invariant on every source (43_decoder R141). -/
theorem decInv_freshDec (src : List Octet) (d : Dec) : decInv (freshDec src d) :=
  ⟨⟨by simp, by simp, by simp, by simp⟩, rfl⟩

/-- In `RUN` no error is stored (10_state R20). -/
theorem statusInv_iff_of_run {d : Dec} (hst : d.st = .run) :
    statusInv d ↔ d.err = { kind := .ok, val := 0, aux := 0 } := by
  simp only [statusInv, hst]

/-- When `FAILED` one of the three errors is stored (10_state R20). -/
theorem statusInv_iff_of_failed {d : Dec} (hst : d.st = .failed) : statusInv d ↔ errInv d := by
  simp only [statusInv, hst]

/-- Taking a septet leaves the stored error alone (41_bit_engine R102). -/
theorem takes_err {c : Config} {d d1 : Dec} {x : Septet} (htake : takesSeptet c d x d1) : d1.err = d.err := by
  rcases htake with ⟨_, _, rfl⟩ | ⟨_, _, b, _, _, rfl⟩ <;> rfl

/-- Taking a septet keeps the invariant in `RUN` (10_state R21). -/
theorem decInv_of_takes {c : Config} {d d1 : Dec} {x : Septet} (hst : d.st = .run) (hinv : decInv d)
    (hpos : d.pos.toNat + 1 < 2 ^ 32) (htake : takesSeptet c d x d1) : d1.st = .run ∧ decInv d1 := by
  have hst1 : d1.st = .run := (takes_st htake).trans hst
  refine ⟨hst1, takes_cursor hpos hinv.1 htake, (statusInv_iff_of_run hst1).mpr ?_⟩
  rw [takes_err htake]
  exact (statusInv_iff_of_run hst).mp hinv.2

/-- `InvalidSeptet` at the position of the last septet handed out meets the invariant (60_exceptions R162). -/
theorem decInv_invalidSeptet {d : Dec} {x : Septet} {p : BitVec 32} (hcursor : cursorInv d)
    (hpos : p.toNat + 1 = d.pos.toNat) : decInv (failDec .invalidSeptet (septetVal x) p d) := by
  refine ⟨hcursor, (statusInv_iff_of_failed rfl).mpr (.inl ⟨rfl, ?_, hpos⟩)⟩
  have hx := x.isLt
  simp only [failDec_err, septetVal, BitVec.toNat_setWidth]
  omega

/-- `UnderlyingIOFailure` meets the invariant wherever the cursor does (60_exceptions R164). -/
theorem decInv_underlyingIOFailure {d : Dec} {w : Word} (hcursor : cursorInv d) :
    decInv (failDec .underlyingIOFailure 0 w d) :=
  ⟨hcursor, (statusInv_iff_of_failed rfl).mpr (.inr (.inr ⟨rfl, rfl⟩))⟩

/-- A read that finds the source used up leaves the cursor (20_memory R41). -/
theorem cursorInv_of_runsOut {c : Config} {d d1 : Dec} (hcursor : cursorInv d) (hends : runsOut c d d1) :
    cursorInv d1 ∧ d1.pos = d.pos ∧ d1.err = d.err ∧ d1.rp = d1.src.length ∧ d1.r ≠ 7 := by
  obtain ⟨hr, -, hnone, rfl⟩ := hends
  obtain ⟨hacc, hmod, hrp, hle⟩ := hcursor
  exact ⟨⟨hacc, hmod, hrp, hle⟩, rfl, rfl, Nat.le_antisymm hle (List.getElem?_eq_none_iff.mp hnone), hr⟩

/-- A failed read leaves the cursor (20_memory R51). -/
theorem cursorInv_of_readFails {c : Config} {d d1 : Dec} {w : Word} (hcursor : cursorInv d)
    (hfails : readFails c d w d1) : cursorInv d1 := by
  obtain ⟨-, -, rfl⟩ := hfails
  exact hcursor

/-- A pull in `RUN` keeps the invariant (43_decoder R140). -/
theorem decInv_of_pull {c : Config} {d : Dec} {p : Dec × Response} (hwidth : c.posW ≤ 32) (hst : d.st = .run)
    (hinv : decInv d) (hpull : Pull c d (.ok p)) : decInv p.1 := by
  have hle : 2 ^ c.posW ≤ 2 ^ 32 := Nat.pow_le_pow_right (by decide) hwidth
  have hfirst {x : Septet} {d1 : Dec} (hpos : d.pos.toNat + 1 < 2 ^ c.posW) (htake : takesSeptet c d x d1) :
      d1.pos.toNat = d.pos.toNat + 1 ∧ d1.st = .run ∧ decInv d1 :=
    ⟨takes_pos_toNat (by omega) htake, decInv_of_takes hst hinv (by omega) htake⟩
  cases hpull with
  | basic htake hx hpos hcp => exact (hfirst hpos htake).2.2
  | undefinedBasic htake hx hpos hundefined =>
    obtain ⟨hcount, -, hinv1⟩ := hfirst hpos htake
    exact decInv_invalidSeptet hinv1.1 hcount.symm
  | extended hescape hpos htake hpos1 hcp =>
    obtain ⟨-, hst1, hinv1⟩ := hfirst hpos hescape
    exact (decInv_of_takes hst1 hinv1 (by omega) htake).2
  | undefinedExtension hescape hpos htake hpos1 hundefined =>
    obtain ⟨hcount, hst1, hinv1⟩ := hfirst hpos hescape
    refine decInv_invalidSeptet (decInv_of_takes hst1 hinv1 (by omega) htake).2.1 ?_
    rw [takes_pos_toNat (by omega) htake, takes_pos hescape]
  | ends hends =>
    obtain ⟨hcursor, -, herr, hused, hr⟩ := cursorInv_of_runsOut hinv.1 hends
    exact ⟨hcursor, herr.trans ((statusInv_iff_of_run hst).mp hinv.2), hused, hr⟩
  | dangles hescape hpos hends =>
    obtain ⟨hcount, -, hinv1⟩ := hfirst hpos hescape
    obtain ⟨hcursor, hpos2, -⟩ := cursorInv_of_runsOut hinv1.1 hends
    refine ⟨hcursor, (statusInv_iff_of_failed rfl).mpr (.inr (.inl ⟨rfl, rfl, ?_⟩))⟩
    rw [raiseDec_fst, failDec_pos, hpos2, hcount]
    rfl
  | fails hfails => exact decInv_underlyingIOFailure (cursorInv_of_readFails hinv.1 hfails)
  | failsAfterEscape hescape hpos hfails =>
    exact decInv_underlyingIOFailure (cursorInv_of_readFails (hfirst hpos hescape).2.2.1 hfails)

/-- `DEC.NEXT` keeps the invariant (43_decoder R140). -/
theorem decInv_decNext {c : Config} {d : Dec} {p : Dec × Response} (hwidth : c.posW ≤ 32) (hinv : decInv d)
    (hnext : decNext c d = .ok p) : decInv p.1 := by
  by_cases hst : d.st = .run
  · exact decInv_of_pull hwidth hst hinv (pull_of_decNext hst hinv.1.1 hnext)
  · obtain ⟨r, hr⟩ := decNext_of_not_run (c := c) hst
    rw [hr] at hnext
    cases hnext
    exact hinv

/-! ### The machine -/

/-- A pull that goes to a next state recorded what `decNext` answers (30_encoding R64). -/
theorem execIn_decNext_iff {c : Config} {s t : State} :
    execIn c .decNext s = .next t ↔ ∃ p, decNext c s.dec = .ok p ∧ t = answerDec s p := by
  simp only [execIn, execDecNextIn]
  cases decNext c s.dec with
  | error r => simp
  | ok p => simp [eq_comm]

/-- Every command keeps the invariant (10_state R14, R20, R21). -/
theorem inv_execIn {c : Config} {i : Instr} {s t : State} (hwidth : c.posW ≤ 32) (hinv : Inv s)
    (ht : execIn c i s = .next t) : Inv t := by
  obtain ⟨henc, hdec⟩ := inv_iff.mp hinv
  cases i with
  | encFeed cp => cases ht; exact inv_iff.mpr ⟨encInv_encFeed c _ henc, hdec⟩
  | encFinish => cases ht; exact inv_iff.mpr ⟨encInv_encFinish c henc, hdec⟩
  | encRst => cases ht; exact inv_iff.mpr ⟨encInv_freshEnc _, hdec⟩
  | decNext =>
    obtain ⟨p, hp, rfl⟩ := execIn_decNext_iff.mp ht
    exact inv_iff.mpr ⟨henc, decInv_decNext hwidth hdec hp⟩
  | decRst => cases ht; exact inv_iff.mpr ⟨henc, decInv_freshDec _ _⟩

/-- Every step of a block keeps the invariant: the event list and the source input are no part of it. -/
theorem inv_stepIn {c : Config} {s t : State} (hwidth : c.posW ≤ 32) (hinv : Inv s)
    (ht : stepIn c s = .next t) : Inv t := by
  rcases stepIn_cases c s with ⟨-, h⟩ | ⟨src, rest, -, h⟩ | ⟨w, rest, -, -, h⟩ | ⟨w, src, rest, -, -, h⟩ |
    ⟨w, rest, i, -, -, -, h⟩ | ⟨w, src, rest, i, -, -, -, h⟩ <;> rw [h] at ht
  · cases ht; exact hinv
  · cases ht; exact inv_iff.mpr ⟨encInv_freshEnc _, decInv_freshDec _ _⟩
  · cases ht; exact hinv
  · cases ht; exact hinv
  · exact inv_execIn (s := { s with pending := rest }) hwidth hinv ht
  · exact inv_execIn (s := { s with pending := rest, srcIn := src }) hwidth hinv ht

/-- Settles O46: `inv_stepIn`, this hardware being the block of 32-bit positions. -/
theorem stepKeepsTheInvariant : Obligations.StepKeepsTheInvariant :=
  ⟨fun s _ hinv ht => inv_stepIn (le_of_eq gsm7Core_posW) hinv ((step_eq s).symm.trans ht),
    fun _ _ _ => inv_stepIn⟩

/-- Settles O47: encoder and decoder are fresh. -/
theorem resetMeetsTheInvariant : Obligations.ResetMeetsTheInvariant :=
  inv_iff.mpr ⟨encInv_freshEnc Enc.reset, decInv_freshDec [] Dec.reset⟩

/-! ### The responses of each command -/

/-- A feed answers one of the responses listed for it (30_encoding R70). -/
theorem encFeed_mayAnswer (c : Config) (cp : Codepoint) (e : Enc) : mayAnswer (.encFeed cp) (encFeed c cp e).2 := by
  rcases encFeed_cases c cp e with ⟨-, hfeed⟩ | ⟨-, -, hfeed⟩ | ⟨l, -, -, -, -, -, hfeed⟩ <;> rw [hfeed]
  · exact .inr (.inr (.inl rfl))
  · exact .inr (.inl rfl)
  · cases (packAll c l e).1 with
    | none => exact .inl rfl
    | some w => exact .inr (.inr (.inr ⟨w, rfl⟩))

/-- A finish answers one of the responses listed for it (30_encoding R70). -/
theorem encFinish_mayAnswer (c : Config) (e : Enc) : mayAnswer .encFinish (encFinish c e).2 := by
  unfold encFinish
  split
  · exact .inr (.inl rfl)
  · split
    · exact .inr (.inr ⟨_, rfl⟩)
    · exact .inl rfl

/-- The errors that `DEC.ERR` can hold are listed for `DEC.NEXT` (30_encoding R70; 10_state R20). -/
theorem raiseStored_mayAnswer {d : Dec} (hinv : errInv d) : mayAnswer .decNext (raiseStored d).2 := by
  rw [raiseStored_snd]
  rcases hinv with ⟨hkind, hval, -⟩ | ⟨hkind, hval, -⟩ | ⟨hkind, hval⟩
  · have hseptet : d.err.val = septetVal (d.err.val.setWidth 7) := by
      apply BitVec.eq_of_toNat_eq
      simp only [septetVal, BitVec.toNat_setWidth]
      omega
    exact .inr (.inr (.inl ⟨_, d.err.aux, by rw [hkind, ← hseptet]⟩))
  · exact .inr (.inr (.inr (.inl ⟨d.err.aux, by rw [hkind, hval]; rfl⟩)))
  · exact .inr (.inr (.inr (.inr ⟨d.err.aux, by rw [hkind, hval]; rfl⟩)))

/-- A pull in `RUN` answers one of the responses listed for it (30_encoding R70). -/
theorem mayAnswer_of_pull {c : Config} {d : Dec} {p : Dec × Response} (hpull : Pull c d (.ok p)) :
    mayAnswer .decNext p.2 := by
  cases hpull with
  | basic htake hx hpos hcp => exact .inl ⟨_, rfl⟩
  | undefinedBasic htake hx hpos hundefined => exact .inr (.inr (.inl ⟨_, _, rfl⟩))
  | extended hescape hpos htake hpos1 hcp => exact .inl ⟨_, rfl⟩
  | undefinedExtension hescape hpos htake hpos1 hundefined => exact .inr (.inr (.inl ⟨_, _, rfl⟩))
  | ends hends => exact .inr (.inl rfl)
  | dangles hescape hpos hends => exact .inr (.inr (.inr (.inl ⟨_, rfl⟩)))
  | fails hfails => exact .inr (.inr (.inr (.inr ⟨_, rfl⟩)))
  | failsAfterEscape hescape hpos hfails => exact .inr (.inr (.inr (.inr ⟨_, rfl⟩)))

/-- A pull answers one of the responses listed for it (30_encoding R70). -/
theorem decNext_mayAnswer {c : Config} {d : Dec} {p : Dec × Response} (hinv : decInv d)
    (hnext : decNext c d = .ok p) : mayAnswer .decNext p.2 := by
  cases hst : d.st with
  | run => exact mayAnswer_of_pull (pull_of_decNext hst hinv.1.1 hnext)
  | ended =>
    simp only [decNext, hst, Except.ok.injEq] at hnext
    subst hnext
    exact .inr (.inl rfl)
  | failed =>
    simp only [decNext, hst, Except.ok.injEq] at hnext
    subst hnext
    exact raiseStored_mayAnswer ((statusInv_iff_of_failed hst).mp hinv.2)

/-- Settles O7: each command records one answer on its own port, and what it answers is listed for it. -/
theorem eachCommandGivesOneListedResponse : Obligations.EachCommandGivesOneListedResponse := by
  intro c i s t hinv ht
  cases i with
  | encFeed cp => cases ht; exact ⟨_, encFeed_mayAnswer c cp s.enc, fun _ => ⟨rfl, rfl⟩, nofun⟩
  | encFinish => cases ht; exact ⟨_, encFinish_mayAnswer c s.enc, fun _ => ⟨rfl, rfl⟩, nofun⟩
  | encRst => cases ht; exact ⟨okNone, rfl, fun _ => ⟨rfl, rfl⟩, nofun⟩
  | decNext =>
    obtain ⟨p, hp, rfl⟩ := execIn_decNext_iff.mp ht
    exact ⟨p.2, decNext_mayAnswer (inv_iff.mp hinv).2 hp, nofun, fun _ => ⟨rfl, rfl⟩⟩
  | decRst => cases ht; exact ⟨okNone, rfl, nofun, fun _ => ⟨rfl, rfl⟩⟩

end Sys2Proof.Proofs

/-! The encoder's commands with their whole next state (42_encoder R120, R121; 20_memory R51): what a feed and a
finish leave, in every block and in this hardware. -/

namespace Sys2Proof.Proofs

open Sys2Proof.Machine Sys2Proof.Laws

/-! ### ENC.FEED -/

/-- Settles O13: a feed whose completed octets are accepted, recorded on `ENC`'s port. -/
theorem feedPacksInEveryBlock : Obligations.FeedPacksInEveryBlock :=
  fun _ _ _ _ hst hacc hform hok => execIn_encFeed_of_eq (encFeed_of_accepts hst hacc hform hok)

/-- This hardware packs the septet form of every character of its table: no transfer fails (42_encoder R120). -/
theorem exec_encFeed_of_form {s : State} {cp : Codepoint} {form : List Septet} (hst : s.enc.st = .opened)
    (hacc : s.enc.acc.toNat < 2 ^ s.enc.k.toNat) (hform : septetForm Config.gsm7Core.alphabet cp = some form) :
    exec (.encFeed cp) s = .next { s with enc := afterPacking s.enc form, encRsp := s.encRsp ++ [okNone] } := by
  rw [exec_eq]
  exact feedPacksInEveryBlock Config.gsm7Core s cp form hst hacc hform (accepts_nil _ _)

/-- The form of a basic character is its septet (30_encoding R60). -/
theorem septetForm_of_basic {a : Alphabet} {cp : Codepoint} {x : Septet} (h : lutEnc a cp = some (false, x)) :
    septetForm a cp = some [x] := by
  simp only [septetForm, h]

/-- The form of an extended character is the escape and its septet (30_encoding R60). -/
theorem septetForm_of_extended {a : Alphabet} {cp : Codepoint} {x : Septet} (h : lutEnc a cp = some (true, x)) :
    septetForm a cp = some [escape, x] := by
  simp only [septetForm, h]

/-- Settles O11: the form is one septet. -/
theorem feedPacksABasicCharacter : Obligations.FeedPacksABasicCharacter :=
  fun _ _ _ hst hacc hcp => exec_encFeed_of_form hst hacc (septetForm_of_basic hcp)

/-- Settles O12: the form is the escape and one septet. -/
theorem feedPacksAnExtendedCharacter : Obligations.FeedPacksAnExtendedCharacter :=
  fun _ _ _ hst hacc hcp => exec_encFeed_of_form hst hacc (septetForm_of_extended hcp)

/-- The block built as `c`, on a platform that never fails (20_memory R51). -/
def neverFailing (c : Config) : Config := { c with ioFail := .never }

/-- A septet whose transfer was accepted is packed alike where none fails (20_memory R42). -/
theorem packPut_neverFailing {c : Config} {s : Septet} {e e1 : Enc} (hacc : e.acc.toNat < 2 ^ e.k.toNat)
    (hput : packPut c s e = (none, e1)) : packPut (neverFailing c) s e = (none, e1) := by
  rcases packPut_cases c s e hacc with ⟨hk, h⟩ | ⟨-, w, -, h⟩ | ⟨-, hok, -⟩
  · rw [← hput, h, packPut_holds hk hacc]
  · rw [h] at hput
    cases hput
  · rw [← hput]
    simp [packPut, sinkWrite, hok, neverFailing]

/-- Packing a septet moves at most one of the completed octets to the sink, so what the sink is to hold in the end
stays the same (41_bit_engine R100). -/
theorem completedOctets_cons {c : Config} {s : Septet} {l : List Septet} {e e1 : Enc}
    (hacc : e.acc.toNat < 2 ^ e.k.toNat) (hacc1 : e1.acc.toNat < 2 ^ e1.k.toNat)
    (hput : packPut c s e = (none, e1)) :
    e.sink ++ completedOctets e (s :: l) = e1.sink ++ completedOctets e1 l := by
  have hall := packAll_arith (neverFailing c) (s :: l) e hacc (accepts_nil _ _)
  rw [packAll_cons_ok (packPut_neverFailing hacc hput),
    packAll_arith (neverFailing c) l e1 hacc1 (accepts_nil _ _)] at hall
  exact (congrArg (fun p : Option Word × Enc => p.2.sink) hall).symm

/-- Where the transfer after `q` accepted ones fails, packing ends `CLOSED` with the first `q` completed octets in
the sink (20_memory R51, 93 U7). -/
theorem packAll_failed {c : Config} {w : Word} {l : List Septet} : ∀ {e : Enc} {q : Nat},
    e.acc.toNat < 2 ^ e.k.toNat → q < octetCount e.k l.length → failsAfter c.ioFail.sink e.writes q w →
    ∃ a k, packAll c l e = (some w, {
      acc := a, k := k, st := .closed, writes := e.writes + q + 1
      sink := (e.sink ++ completedOctets e l).take (e.sink.length + q) }) := by
  induction l with
  | nil =>
    intro e q _ hq _
    have := e.k.isLt
    simp only [octetCount, List.length_nil] at hq
    omega
  | cons s l ih =>
    intro e q hacc hq hfails
    simp only [octetCount, List.length_cons] at hq
    rcases packPut_cases c s e hacc with ⟨hk, hput⟩ | ⟨-, w', hw', hput⟩ | ⟨hk, hok, o, a, hput, -, ha, -⟩
    · have hk0 : e.k.toNat = 0 := by rw [hk]; rfl
      have hacc1 : s.toNat < 2 ^ (7 : BitVec 3).toNat := s.isLt
      rw [packAll_cons_ok hput, completedOctets_cons hacc hacc1 hput]
      exact ih hacc1 (by simp only [octetCount, BitVec.reduceToNat]; omega) hfails
    · cases q with
      | zero =>
        obtain rfl : w' = w := Option.some.inj (hw'.symm.trans (failsAfter_zero hfails))
        exact ⟨Config.freeAcc e.writes, Config.freeK e.writes, by
          simp [packAll_cons_fail hput, sinkFailed]⟩
      | succ q => exact absurd ((failsAfter_succ hfails).1.symm.trans hw') (by simp)
    · have hrange := k_ne hk
      have hk1 : (BitVec.ofNat 3 (e.k.toNat - 1)).toNat = e.k.toNat - 1 := by
        simp only [BitVec.toNat_ofNat]
        omega
      rw [← hk1] at ha
      cases q with
      | zero => exact absurd (hok.symm.trans (failsAfter_zero hfails)) (by simp)
      | succ q =>
        obtain ⟨a', k', hrest⟩ := ih (e := { e with
            writes := e.writes + 1, sink := e.sink ++ [o], acc := a, k := BitVec.ofNat 3 (e.k.toNat - 1) })
          ha (by simp only [octetCount, hk1]; omega) (failsAfter_succ hfails).2
        refine ⟨a', k', ?_⟩
        rw [packAll_cons_ok hput, completedOctets_cons hacc ha hput, hrest]
        simp only [List.length_append, List.length_singleton, Nat.add_assoc, Nat.add_comm 1]

/-- Settles O19: packing the form ends in the failure with the octets before it in the sink. -/
theorem sinkFailureClosesTheEncoder : Obligations.SinkFailureClosesTheEncoder := by
  intro c s cp form q w hst hacc hform hq hfails
  obtain ⟨a, k, hpack⟩ := packAll_failed hacc hq hfails
  refine ⟨a, k, ?_⟩
  rw [execIn_encFeed_of_eq (encFeed_of_form hst hform), hpack, List.take_length_add_append]
  rfl

/-! ### ENC.FINISH -/

/-- A flush whose octet is accepted writes the held bits and the padding, as one number (41_bit_engine R101). -/
theorem packFlush_of_accepts {c : Config} {e : Enc} (hk : e.k ≠ 0) (hacc : e.acc.toNat < 2 ^ e.k.toNat)
    (hok : failureAt c.ioFail.sink e.writes = none) :
    packFlush c e = (none, { e with
      acc := 0, k := 0, writes := e.writes + 1
      sink := e.sink ++ [BitVec.ofNat 8 (e.acc.toNat + c.padFill.toNat * (256 - 2 ^ e.k.toNat))] }) := by
  rcases packFlush_cases c e with ⟨hk0, -⟩ | ⟨-, w, hw, -⟩ | ⟨-, -, hflush⟩
  · exact absurd hk0 hk
  · exact absurd (hok.symm.trans hw) (by simp)
  · rw [hflush, ← flush_octet c.padFill e.k e.acc hk hacc, BitVec.ofNat_toNat, BitVec.setWidth_eq]

/-- Settles O17: the octet as a sum by `flush_octet`, bit by bit by `flush_bits`. -/
theorem flushPadsWithPadFill : Obligations.FlushPadsWithPadFill := by
  intro c e hk hacc hok
  have hoctet := flush_octet c.padFill e.k e.acc hk hacc
  obtain ⟨hheld, hpad⟩ := flush_bits c.padFill e.k e.acc hk hacc
  refine ⟨e.acc.setWidth 8 ||| padBits c.padFill e.k, ?_, hoctet, hheld, hpad⟩
  rw [packFlush_of_accepts hk hacc hok, ← hoctet, BitVec.ofNat_toNat, BitVec.setWidth_eq]

/-- A finish whose octet, if there is one, is accepted, with its whole next state (42_encoder R121). -/
theorem execIn_encFinish_of_accepts {c : Config} {s : State} (hst : s.enc.st = .opened)
    (hacc : s.enc.acc.toNat < 2 ^ s.enc.k.toNat)
    (hok : s.enc.k ≠ 0 → failureAt c.ioFail.sink s.enc.writes = none) :
    execIn c .encFinish s = .next { s with
      encRsp := s.encRsp ++ [okNone]
      enc := { acc := 0, k := 0, st := .closed
               sink := s.enc.sink ++ (if s.enc.k = 0 then [] else
                 [BitVec.ofNat 8 (s.enc.acc.toNat + c.padFill.toNat * (256 - 2 ^ s.enc.k.toNat))])
               writes := if s.enc.k = 0 then s.enc.writes else s.enc.writes + 1 } } := by
  rw [execIn_encFinish_of_eq (encFinish_of_accepts hst hok)]
  by_cases hk : s.enc.k = 0
  · simp [packFlush, hk, answerEnc, closeEnc, acc_eq_zero_of_k hk hacc]
  · rw [packFlush_of_accepts hk hacc (hok hk)]
    simp only [if_neg hk, answerEnc, closeEnc]

/-- Settles O16: this hardware is the block that pads with 1 and whose transfers never fail. -/
theorem finishFlushesAndCloses : Obligations.FinishFlushesAndCloses := by
  refine ⟨fun s hst hacc => ?_, fun c s => execIn_encFinish_of_accepts⟩
  rw [exec_eq, execIn_encFinish_of_accepts hst hacc fun _ => rfl]
  simp

/-- Settles O20: a failed flush leaves the sink, and the free values. -/
theorem sinkFailureAtFinish : Obligations.SinkFailureAtFinish :=
  fun _ _ _ hst hk hw => ⟨_, _, execIn_encFinish_of_eq (encFinish_of_fails hst hk hw)⟩

end Sys2Proof.Proofs

/-! Packed streams on a platform that never fails (20_memory R44 to R46; 41_bit_engine R105, R107; 42_encoder R125):
feeding a text is packing its septets, and a flush adds the padding bits. -/

namespace Sys2Proof.Proofs

open Sys2Proof.Machine Sys2Proof.Laws

/-- Packing goes on where the first part of the septets ended (42_encoder R120). -/
theorem packAll_append {c : Config} {l m : List Septet} : ∀ {e e1 : Enc}, packAll c l e = (none, e1) →
    packAll c (l ++ m) e = packAll c m e1 := by
  induction l with
  | nil => rintro e e1 ⟨⟩; rfl
  | cons s l ih =>
    intro e e1 hpack
    rcases hput : packPut c s e with ⟨_ | w, e2⟩
    · rw [packAll_cons_ok hput] at hpack
      rw [List.cons_append, packAll_cons_ok hput, ih hpack]
    · rw [packAll_cons_fail hput] at hpack
      cases hpack

/-- Where no transfer fails, packing ends `OPEN` with the held bits fitting `ENC.K` (41_bit_engine R103). -/
theorem packAll_never {c : Config} {e : Enc} (hio : c.ioFail = .never) (l : List Septet) (hst : e.st = .opened)
    (hacc : e.acc.toNat < 2 ^ e.k.toNat) :
    ∃ e1, packAll c l e = (none, e1) ∧ e1.st = .opened ∧ e1.acc.toNat < 2 ^ e1.k.toNat := by
  rcases packAll_cases c l e hacc with ⟨e1, hpack, hacc1, hst1, -⟩ | ⟨w, e1, -, -, -, q, -, ⟨-, hw⟩, -⟩
  · exact ⟨e1, hpack, hst1.trans hst, hacc1⟩
  · simp [hio] at hw

/-- The text's septets, character by character; a refused one gives none (42_encoder R125). -/
theorem textSeptets_cons (a : Alphabet) (cp : Codepoint) (text : List Codepoint) :
    textSeptets a (cp :: text) = (septetForm a cp).getD [] ++ textSeptets a text := rfl

/-- Feeding a text, refused characters not counting, is packing its septets (42_encoder R125). -/
theorem feedEach_eq_packAll {c : Config} (hio : c.ioFail = .never) (text : List Codepoint) : ∀ {e : Enc},
    e.st = .opened → e.acc.toNat < 2 ^ e.k.toNat →
    feedEach c text e = (packAll c (textSeptets c.alphabet text) e).2 := by
  induction text with
  | nil => intros; rfl
  | cons cp text ih =>
    intro e hst hacc
    have hfeedEach : feedEach c (cp :: text) e = feedEach c text (encFeed c cp e).1 := rfl
    rw [hfeedEach, textSeptets_cons]
    cases hform : septetForm c.alphabet cp with
    | none =>
      rw [encFeed_of_unsupported hst hform]
      exact ih hst hacc
    | some form =>
      obtain ⟨e1, hpack, hst1, hacc1⟩ := packAll_never hio form hst hacc
      rw [encFeed_of_form hst hform, hpack, Option.getD_some, packAll_append hpack]
      exact ih hst1 hacc1

/-- A fresh encoder holds no bit (10_state R29). -/
theorem acc_lt_of_fresh {e : Enc} (h : isFreshEnc e) : e.acc.toNat < 2 ^ e.k.toNat := by
  obtain ⟨hacc, hk, -, -⟩ := h
  simp [hacc, hk]

/-- What a fresh encoder holds after a text (42_encoder R125). -/
theorem feedEach_fresh {c : Config} {e : Enc} (hio : c.ioFail = .never) (hfresh : isFreshEnc e)
    (text : List Codepoint) :
    feedEach c text e = (packAll c (textSeptets c.alphabet text) e).2 :=
  feedEach_eq_packAll hio text hfresh.2.2.1 (acc_lt_of_fresh hfresh)

/-- Settles O23: feeding the text is packing its septets, whose bits and number `packAll_fresh` gives. -/
theorem sinkAndHeldBitsArePackedText : Obligations.SinkAndHeldBitsArePackedText := by
  intro c text e hio hfresh
  obtain ⟨e1, hpack, hbits, -, hcount, hst⟩ := packAll_fresh hio (textSeptets c.alphabet text) e hfresh
  rw [feedEach_fresh hio hfresh, hpack]
  dsimp only
  have hk := e1.k.isLt
  exact ⟨hbits, by omega, by omega, hst⟩

/-- How many padding bits complete the last octet of `n` septets (20_memory R45). -/
abbrev padCount (n : Nat) : Nat := (8 - 7 * n % 8) % 8

/-- Packed and flushed, the sink is the septets' bits and then the padding bits (41_bit_engine R101). -/
theorem packFlush_packAll_bits {c : Config} {e : Enc} (hio : c.ioFail = .never) (l : List Septet)
    (hfresh : isFreshEnc e) :
    ∃ f, packFlush c (packAll c l e).2 = (none, f) ∧
      octetBits f.sink = septetBits l ++ List.replicate (padCount l.length) (decide (c.padFill = 1)) := by
  obtain ⟨e1, hpack, hbits, hacc, hcount, -⟩ := packAll_fresh hio l e hfresh
  obtain ⟨f, p, hflush, hsink, hp, -⟩ := flush_sink hio e1 hacc
  have hk := e1.k.isLt
  have hkn : e1.k.toNat = 7 * l.length % 8 := by omega
  rw [hbits, hp, hkn] at hsink
  exact ⟨f, by rw [hpack, hflush], hsink⟩

/-- Finished, the encoder is `CLOSED` with that sink, and answers `OK` (42_encoder R121, R125). -/
theorem encFinish_packAll_bits {c : Config} {e : Enc} (hio : c.ioFail = .never) (l : List Septet)
    (hfresh : isFreshEnc e) :
    ∃ f, encFinish c (packAll c l e).2 = (f, okNone) ∧ f.st = .closed ∧
      octetBits f.sink = septetBits l ++ List.replicate (padCount l.length) (decide (c.padFill = 1)) := by
  obtain ⟨f, hflush, hsink⟩ := packFlush_packAll_bits hio l hfresh
  obtain ⟨e1, hpack, -, -, -, hst⟩ := packAll_fresh hio l e hfresh
  refine ⟨closeEnc f, ?_, rfl, hsink⟩
  rw [hpack] at hflush ⊢
  rw [encFinish_of_accepts hst fun _ => by rw [hio]; rfl, hflush]

/-- Settles O24: stream bit `j` of the finished sink is bit `j` of the septets followed by the padding. -/
theorem finishedSinkHasTheLayout : Obligations.FinishedSinkHasTheLayout := by
  intro c text e f r hio hfresh hfinish
  obtain ⟨f1, hfinish1, hst, hbits⟩ := encFinish_packAll_bits hio (textSeptets c.alphabet text) hfresh
  rw [feedEach_fresh hio hfresh, hfinish1] at hfinish
  cases hfinish
  have hlength : 8 * f.sink.length = 7 * (textSeptets c.alphabet text).length +
      padCount (textSeptets c.alphabet text).length := by
    simpa using congrArg List.length hbits
  simp only [padCount] at hbits hlength
  refine ⟨rfl, hst, by omega, fun i b hb hi => ?_, fun j hle hlt => ?_⟩
  · rw [← octetBits_getElem?, hbits, List.getElem?_append_left (by rw [septetBits_length]; omega), septetBits_getElem? _ i b hb]
  · rw [← octetBits_getElem?, hbits, List.getElem?_append_right (by simpa using hle),
      List.getElem?_replicate_of_lt (by rw [septetBits_length]; omega)]

/-- Settles O25: the sink's bits are the septets, perhaps one of padding, and fewer than seven bits more, and
unpacking cuts them so. -/
theorem unpackingInvertsPacking : Obligations.UnpackingInvertsPacking := by
  intro c l e d n hio hfresh hdec hn
  obtain ⟨f, hflush, hbits⟩ := packFlush_packAll_bits hio l hfresh
  rw [hflush] at hdec
  obtain ⟨hrest, hacc⟩ := fresh_rem hdec
  obtain ⟨q, hpad, hq⟩ := pad_split c (padCount l.length) l.length rfl
  rw [hbits, hpad, ← List.append_assoc, ← septetBits_append] at hrest
  have hlen : (l ++ if l.length % 8 = 7 then [padSeptet c] else []).length < n := by
    split <;> simp <;> omega
  obtain ⟨hall, hexhausted, hleft⟩ := unpackAll_spec hio _ n d _ hacc hrest (by simpa using hq) hlen
  have hcount : (unpackAll c n d).2.r.toNat = q := by simpa using congrArg List.length hleft
  exact ⟨hall, hexhausted, by rw [hleft, hcount]⟩

/-- The value of eight septets on an empty encoder: their digits in base 128 (41_bit_engine R106). -/
theorem heldValue_eight {e : Enc} (hacc : e.acc = 0) (hk : e.k = 0) (s0 s1 s2 s3 s4 s5 s6 s7 : Septet) :
    heldValue e [s0, s1, s2, s3, s4, s5, s6, s7] = s0.toNat + 128 * (s1.toNat + 128 * (s2.toNat +
      128 * (s3.toNat + 128 * (s4.toNat + 128 * (s5.toNat + 128 * (s6.toNat + 128 * s7.toNat)))))) := by
  simp [heldValue, hacc, hk]

/-- Eight septets on an empty encoder complete seven octets, the digits of their value in base 256, and leave
nothing held (41_bit_engine R107). -/
theorem afterPacking_eight {e : Enc} {l : List Septet} (hacc : e.acc = 0) (hk : e.k = 0) (hlen : l.length = 8)
    (hvalue : heldValue e l < 256 ^ 7) :
    afterPacking e l = { e with
      sink := e.sink ++ (List.range 7).map fun j => BitVec.ofNat 8 (heldValue e l / 256 ^ j)
      writes := e.writes + 7 } := by
  have hcount : octetCount 0 8 = 7 := rfl
  simp only [afterPacking, completedOctets, hlen, hk, hacc, hcount, Nat.div_eq_of_lt hvalue]
  rfl

/-- Settles O26: the seven octets are the digits in base 256 of the number whose digits in base 128 are the
septets. -/
theorem eightSeptetsGiveSevenOctets : Obligations.EightSeptetsGiveSevenOctets := by
  intro c s0 s1 s2 s3 s4 s5 s6 s7 e hacc hk hok
  have hvalue := heldValue_eight hacc hk s0 s1 s2 s3 s4 s5 s6 s7
  have h0 := s0.isLt
  have h1 := s1.isLt
  have h2 := s2.isLt
  have h3 := s3.isLt
  have h4 := s4.isLt
  have h5 := s5.isLt
  have h6 := s6.isLt
  have h7 := s7.isLt
  refine ⟨_, _, _, _, _, _, _, (packAll_arith c _ e (by simp [hacc, hk]) (by simpa [hk, octetCount] using hok)).trans
    (congrArg (Prod.mk none) (afterPacking_eight hacc hk rfl (by omega))), ?_⟩
  simp only [hvalue, BitVec.toNat_ofNat]
  omega

end Sys2Proof.Proofs

/-! The lookups of a well-formed table are inverse to each other (40_alphabet R84 to R87). -/

namespace Sys2Proof.Proofs

open Sys2Proof.Machine Sys2Proof.Laws

/-- Searching a table that names no septet and no character twice inverts reading it (40_alphabet R80, R86). -/
theorem romFind_eq_some_iff {rows : List (Septet × Codepoint)} (hf : rowsAreFunction rows = true)
    (hn : (rows.map (fun p => p.2)).Nodup) {x : Septet} {cp : Codepoint} :
    romFind rows cp = some x ↔ romAt rows x = some cp :=
  (romFind_iff hn x cp).trans (romAt_iff (rowsAreFunction_iff.mp hf).1 x cp).symm

/-- `LutEnc` answers a basic septet exactly when `BASIC` holds the character there (40_alphabet R86). -/
theorem lutEnc_eq_basic_iff {a : Alphabet} {cp : Codepoint} {x : Septet} :
    lutEnc a cp = some (false, x) ↔ romFind a.basic cp = some x := by
  unfold lutEnc
  cases romFind a.basic cp with
  | some s => simp
  | none => cases romFind a.ext cp <;> simp

/-- `LutEnc` answers an extension septet exactly when `BASIC` lacks the character and `EXT` holds it there
(40_alphabet R86). -/
theorem lutEnc_eq_ext_iff {a : Alphabet} {cp : Codepoint} {x : Septet} :
    lutEnc a cp = some (true, x) ↔ romFind a.basic cp = none ∧ romFind a.ext cp = some x := by
  unfold lutEnc
  cases romFind a.basic cp with
  | some s => simp
  | none => cases romFind a.ext cp <;> simp

/-- `LutEnc` answers `Unsupported` exactly when both tables lack the character (40_alphabet R86). -/
theorem lutEnc_eq_none_iff {a : Alphabet} {cp : Codepoint} :
    lutEnc a cp = none ↔ romFind a.basic cp = none ∧ romFind a.ext cp = none := by
  unfold lutEnc
  cases romFind a.basic cp with
  | some s => simp
  | none => cases romFind a.ext cp <;> simp

/-- `BASIC` and `LutEnc` are inverse on a well-formed table (40_alphabet R87). -/
theorem lutDecB_iff_lutEnc {a : Alphabet} (hwf : a.wellFormed = true) {x : Septet} {cp : Codepoint} :
    lutDecB a x = some cp ↔ lutEnc a cp = some (false, x) := by
  obtain ⟨hb, -, -, hbInj, -⟩ := alphabet_wellFormed_iff.mp hwf
  rw [lutEnc_eq_basic_iff, romFind_eq_some_iff hb hbInj, lutDecB]

/-- `EXT` and `LutEnc` are inverse on a well-formed table, since no character is in both tables (40_alphabet
R83 (d), R87). -/
theorem lutDecX_iff_lutEnc {a : Alphabet} (hwf : a.wellFormed = true) {x : Septet} {cp : Codepoint} :
    lutDecX a x = some cp ↔ lutEnc a cp = some (true, x) := by
  obtain ⟨hb, he, -, hbInj, heInj, hdisjoint, -⟩ := alphabet_wellFormed_iff.mp hwf
  rw [lutEnc_eq_ext_iff, romFind_eq_some_iff he heInj, ← lutDecX, iff_and_self]
  intro hx
  refine Option.eq_none_iff_forall_ne_some.mpr fun y hy => ?_
  exact lutDecX_ne_of_lutDecB hb he hdisjoint ((romFind_eq_some_iff hb hbInj).mp hy) hx

/-- `LutEnc` answers `Unsupported` exactly when no septet decodes to the character (40_alphabet R86). -/
theorem lutEnc_eq_none_iff_undecoded {a : Alphabet} (hwf : a.wellFormed = true) {cp : Codepoint} :
    lutEnc a cp = none ↔ ∀ y, lutDecB a y ≠ some cp ∧ lutDecX a y ≠ some cp := by
  obtain ⟨hb, he, -, hbInj, heInj, -⟩ := alphabet_wellFormed_iff.mp hwf
  rw [lutEnc_eq_none_iff, Option.eq_none_iff_forall_ne_some, Option.eq_none_iff_forall_ne_some, forall_and]
  simp only [ne_eq, romFind_eq_some_iff hb hbInj, romFind_eq_some_iff he heInj, lutDecB, lutDecX]

/-- Settles O28: the three answers of `LutEnc`, and R83 (a) for the bare escape. -/
theorem lookupsAreInverse : Obligations.LookupsAreInverse := by
  intro a hwf x cp
  refine ⟨lutDecB_iff_lutEnc hwf, lutDecX_iff_lutEnc hwf, lutEnc_eq_none_iff_undecoded hwf, fun hbare => ?_⟩
  obtain ⟨-, -, hescape, -⟩ := alphabet_wellFormed_iff.mp hwf
  exact absurd (hescape.symm.trans ((lutDecB_iff_lutEnc hwf).mpr hbare)) (by simp)

/-- The default basic table's one hole is the escape (40_alphabet R81). -/
theorem defaultAlphabet_lutDecB_eq_none_iff (x : Septet) : lutDecB defaultAlphabet x = none ↔ x = 0x1B :=
  ⟨fun hnone => by_contra fun hx => defaultAlphabet_lutDecB_ne_none x hx hnone,
    by rintro rfl; decide⟩

/-- The ten septets that the default extension table assigns (40_alphabet R82). -/
theorem defaultAlphabet_lutDecX_isSome_iff : ∀ x : Septet, (lutDecX defaultAlphabet x).isSome ↔
    x ∈ [0x0A, 0x14, 0x28, 0x29, 0x2F, 0x3C, 0x3D, 0x3E, 0x40, 0x65] := by
  decide

/-- Settles O29: the build by R83, the two tables septet by septet. -/
theorem defaultTablesAreWellFormed : Obligations.DefaultTablesAreWellFormed :=
  ⟨build_gsm7Core, defaultAlphabet_lutDecB_eq_none_iff, defaultAlphabet_lutDecX_isSome_iff⟩

end Sys2Proof.Proofs

/-! `DEC.NEXT` (43_decoder R140 to R145): what a pull answers and leaves in each of its branches, and back from the
answer to the branch. -/

namespace Sys2Proof.Proofs

open Sys2Proof.Machine Sys2Proof.Laws

/-! ### From the branch to the answer -/

/-- A septet after the escape that the extension table defines is its character (43_decoder R140). -/
theorem decEscaped_of_extended {c : Config} {p : BitVec 32} {d d1 : Dec} {x : Septet} {cp : Codepoint}
    (hacc : d.acc.toNat < 2 ^ d.r.toNat) (hpos : d.pos.toNat + 1 < 2 ^ c.posW) (htake : takesSeptet c d x d1)
    (hcp : lutDecX c.alphabet x = some cp) : decEscaped c p d = .ok (d1, okChar cp) := by
  simp only [decEscaped, unpackGet_of_takes hacc htake, count_ok (takes_pos htake) hpos, resolve, hcp]

/-- A pull in `RUN` that takes the escape and a septet of the extension table answers its character (43_decoder
R140). -/
theorem decNext_of_extended {c : Config} {d d1 d2 : Dec} {x : Septet} {cp : Codepoint} (hst : d.st = .run)
    (hacc : d.acc.toNat < 2 ^ d.r.toNat) (hpos : d.pos.toNat + 2 < 2 ^ c.posW) (hwidth : c.posW ≤ 32)
    (hescape : takesSeptet c d escape d1) (htake : takesSeptet c d1 x d2) (hcp : lutDecX c.alphabet x = some cp) :
    decNext c d = .ok (d2, okChar cp) := by
  have hle : 2 ^ c.posW ≤ 2 ^ 32 := Nat.pow_le_pow_right (by decide) hwidth
  have hpos1 : d1.pos.toNat = d.pos.toNat + 1 := takes_pos_toNat (by omega) hescape
  rw [decNext_of_escape hst hacc (by omega) hescape]
  exact decEscaped_of_extended (takes_acc hacc hescape) (by omega) htake hcp

/-- A pull in `RUN` that finds the source used up ends the decoder (43_decoder R145). -/
theorem decNext_of_runsOut {c : Config} {d d1 : Dec} (hst : d.st = .run) (hends : runsOut c d d1) :
    decNext c d = .ok (endDec d1, okEnd) := by
  simp only [decNext, hst, decRun, unpackGet_of_runsOut hends]

/-- A pull in `RUN` whose first read the platform fails (20_memory R51). -/
theorem decNext_of_readFails {c : Config} {d d1 : Dec} {w : Word} (hst : d.st = .run)
    (hfails : readFails c d w d1) : decNext c d = .ok (raiseDec .underlyingIOFailure 0 w d1) := by
  simp only [decNext, hst, decRun, unpackGet_of_readFails hfails]

/-- A read after the escape that the platform fails (20_memory R51). -/
theorem decEscaped_of_readFails {c : Config} {p : BitVec 32} {d d1 : Dec} {w : Word}
    (hfails : readFails c d w d1) : decEscaped c p d = .ok (raiseDec .underlyingIOFailure 0 w d1) := by
  simp only [decEscaped, unpackGet_of_readFails hfails]

/-- A septet is counted where the next position fits `POS_W` bits (43_decoder R144; log 8). -/
theorem countSeptet_eq_some_iff {c : Config} {d d1 : Dec} :
    countSeptet c d = some d1 ↔ d.pos.toNat + 1 < 2 ^ c.posW ∧ d1 = { d with pos := d.pos + 1 } := by
  simp only [countSeptet, Option.ite_none_right_eq_some, Option.some.injEq, eq_comm (a := d1)]

/-- A septet is not counted at the last position (10_state R18; log 8). -/
theorem countSeptet_eq_none_iff {c : Config} {d : Dec} :
    countSeptet c d = none ↔ ¬ d.pos.toNat + 1 < 2 ^ c.posW := by
  simp [countSeptet]

/-- A pull in `RUN` that takes a septet at the last position is refused (93 U9; log 8). -/
theorem decNext_of_last {c : Config} {d d1 : Dec} {x : Septet} (hst : d.st = .run)
    (hacc : d.acc.toNat < 2 ^ d.r.toNat) (htake : takesSeptet c d x d1)
    (hlast : ¬ d.pos.toNat + 1 < 2 ^ c.posW) : decNext c d = .error .positionOverflow := by
  simp only [decNext, hst, decRun, unpackGet_of_takes hacc htake,
    (countSeptet_eq_none_iff (d := { d1 with pos := d.pos })).mpr hlast]

/-- A septet taken after the escape at the last position is refused (93 U9; log 8). -/
theorem decEscaped_of_last {c : Config} {p : BitVec 32} {d d1 : Dec} {x : Septet}
    (hacc : d.acc.toNat < 2 ^ d.r.toNat) (htake : takesSeptet c d x d1)
    (hlast : ¬ d.pos.toNat + 1 < 2 ^ c.posW) : decEscaped c p d = .error .positionOverflow := by
  simp only [decEscaped, unpackGet_of_takes hacc htake,
    (countSeptet_eq_none_iff (d := { d1 with pos := d.pos })).mpr hlast]

/-- A pull that is refused records nothing (93 U9). -/
theorem execIn_decNext_of_error {c : Config} {s : State} {r : Refusal} (h : decNext c s.dec = .error r) :
    execIn c .decNext s = .refused r := by
  simp only [execIn, execDecNextIn, h]

/-! ### What a pull answers and leaves -/

/-- Settles O33: each clause is a branch of the pull, recorded on `DEC`'s port. -/
theorem nextAnswersInEveryBlock : Obligations.NextAnswersInEveryBlock := by
  intro c s x cp d1 d2 hwidth hst hacc
  refine ⟨fun hpos htake hx hcp => ?basic, fun hpos hescape htake hcp => ?extended, fun hends => ?ends,
    fun hpos hescape hends => ?dangles⟩
  case basic => exact execIn_decNext_of_ok (decNext_of_basic hst hacc hpos htake hx hcp)
  case extended => exact execIn_decNext_of_ok (decNext_of_extended hst hacc hpos hwidth hescape htake hcp)
  case ends => exact execIn_decNext_of_ok (decNext_of_runsOut hst hends)
  case dangles => exact execIn_decNext_of_ok (decNext_of_dangling hst hacc hpos hescape hends)

/-- Settles O30: the branch of a basic character in this hardware. -/
theorem nextAnswersABasicCharacter : Obligations.NextAnswersABasicCharacter := by
  intro s x cp d1 hst hacc hpos htake hx hcp
  rw [exec_eq]
  exact execIn_decNext_of_ok (decNext_of_basic hst hacc hpos htake hx hcp)

/-- Settles O31: the branch of an extended character in this hardware. -/
theorem nextAnswersAnExtendedCharacter : Obligations.NextAnswersAnExtendedCharacter := by
  intro s x cp d1 d2 hst hacc hpos hescape htake hcp
  rw [exec_eq]
  exact execIn_decNext_of_ok (decNext_of_extended hst hacc hpos (le_of_eq gsm7Core_posW) hescape htake hcp)

/-- Settles O32: the branch of the end in this hardware. -/
theorem nextEndsAtACharacterBoundary : Obligations.NextEndsAtACharacterBoundary := by
  intro s d1 hst hends
  rw [exec_eq]
  exact execIn_decNext_of_ok (decNext_of_runsOut hst hends)

/-- Settles O35: the branch of an undefined extension septet in this hardware. -/
theorem nextRefusesAnUndefinedExtension : Obligations.NextRefusesAnUndefinedExtension := by
  intro s x d1 d2 hst hacc hpos hescape htake hundefined
  rw [exec_eq]
  exact execIn_decNext_of_ok
    (decNext_of_undefined_extension hst hacc hpos (le_of_eq gsm7Core_posW) hescape htake hundefined)

/-- Settles O37: the two branches of a failed read, recorded on `DEC`'s port. -/
theorem sourceFailureFailsTheDecoder : Obligations.SourceFailureFailsTheDecoder := by
  intro c s w hst
  refine ⟨fun d1 hfails => ?first, fun d1 d2 hacc hpos hescape hfails => ?afterEscape⟩
  case first => exact execIn_decNext_of_ok (decNext_of_readFails hst hfails)
  case afterEscape =>
    exact execIn_decNext_of_ok
      ((decNext_of_escape hst hacc hpos hescape).trans (decEscaped_of_readFails hfails))

/-- Settles O38: outside `RUN` a pull answers `OK/End` or the stored error, and leaves the decoder. -/
theorem endAndErrorAreSticky : Obligations.EndAndErrorAreSticky := by
  intro s
  refine ⟨fun hst => ?_, fun hst => ?_⟩
  · rw [exec_eq, execIn_decNext_of_ok (p := (s.dec, okEnd)) (by simp only [decNext, hst])]
    rfl
  · rw [exec_eq, execIn_decNext_of_ok (p := raiseStored s.dec) (by simp only [decNext, hst])]
    rfl

/-- Settles O40: the count is refused at the first septet, or at the one after the escape. -/
theorem positionOverflowIsRefused : Obligations.PositionOverflowIsRefused := by
  intro s x d1 d2 hst hacc
  rw [exec_eq]
  refine ⟨fun hpos htake => ?first, fun hpos hescape htake => ?afterEscape⟩
  case first => exact execIn_decNext_of_error (decNext_of_last hst hacc htake (by rw [gsm7Core_posW]; omega))
  case afterEscape =>
    have hpos1 : d1.pos.toNat = s.dec.pos.toNat + 1 := takes_pos_toNat (by omega) hescape
    refine execIn_decNext_of_error ((decNext_of_escape hst hacc ?_ hescape).trans
      (decEscaped_of_last (takes_acc hacc hescape) htake ?_)) <;> rw [gsm7Core_posW] <;> omega

/-! ### From the answer back to the branch -/

/-- An error is no character (30_encoding R69). -/
theorem raise_ne_okChar (status : Status) (val : BitVec 21) (aux : Word) (cp : Codepoint) :
    raise status val aux ≠ okChar cp := by
  simp [raise, okChar]

/-- The end is no character (30_encoding R69). -/
theorem okEnd_ne_okChar (cp : Codepoint) : okEnd ≠ okChar cp := by
  simp [okEnd, okChar]

/-- A pull that answers a character took one septet of the basic table, or the escape and one of the extension
table (43_decoder R142). -/
theorem takes_of_pull_okChar {c : Config} {d d' : Dec} {cp : Codepoint} (hpull : Pull c d (.ok (d', okChar cp))) :
    (∃ x, x ≠ escape ∧ takesSeptet c d x d' ∧ lutDecB c.alphabet x = some cp) ∨
    ∃ x d1, takesSeptet c d escape d1 ∧ takesSeptet c d1 x d' ∧ lutDecX c.alphabet x = some cp := by
  generalize hp : (d', okChar cp) = p at hpull
  have hd' : d' = p.1 := congrArg Prod.fst hp
  have hr : p.2 = okChar cp := (congrArg Prod.snd hp).symm
  subst hd'
  cases hpull with
  | basic htake hx hpos hcp =>
    obtain rfl := congrArg Response.val hr
    exact .inl ⟨_, hx, htake, hcp⟩
  | undefinedBasic => exact absurd hr (raise_ne_okChar _ _ _ _)
  | extended hescape hpos htake hpos1 hcp =>
    obtain rfl := congrArg Response.val hr
    exact .inr ⟨_, _, hescape, htake, hcp⟩
  | undefinedExtension => exact absurd hr (raise_ne_okChar _ _ _ _)
  | ends => exact absurd hr (okEnd_ne_okChar _)
  | dangles => exact absurd hr (raise_ne_okChar _ _ _ _)
  | fails => exact absurd hr (raise_ne_okChar _ _ _ _)
  | failsAfterEscape => exact absurd hr (raise_ne_okChar _ _ _ _)

/-- Settles O41: the answer recorded is the pull's, and only two branches answer a character. -/
theorem oneCharacterPerPull : Obligations.OneCharacterPerPull := by
  intro s t cp hst hacc ht hrsp
  rw [exec_eq] at ht
  obtain ⟨⟨d', r⟩, hp, rfl⟩ := execIn_decNext_iff.mp ht
  obtain rfl : r = okChar cp := by simpa using hrsp
  exact takes_of_pull_okChar (pull_of_decNext hst hacc hp)

/-- A pull that leaves the decoder `ENDED` found the source used up at a character's start (43_decoder R145). -/
theorem runsOut_of_pull_ended {c : Config} {d : Dec} {p : Dec × Response} (hst : d.st = .run)
    (hpull : Pull c d (.ok p)) (hended : p.1.st = .ended) : ∃ d1, runsOut c d d1 ∧ p.1 = endDec d1 := by
  have hruns {d1 : Dec} (h : d1.st = .run) : ¬ d1.st = .ended := by simp [h]
  cases hpull with
  | basic htake => exact absurd hended (hruns ((takes_st htake).trans hst))
  | extended hescape hpos htake =>
    exact absurd hended (hruns ((takes_st htake).trans ((takes_st hescape).trans hst)))
  | ends hends => exact ⟨_, hends, rfl⟩
  | undefinedBasic | undefinedExtension | dangles | fails | failsAfterEscape => cases hended

/-- Where the source is used up with fewer than seven bits held, the position is the number of whole septets of the
source, and the bits held are those above them (43_decoder R145). -/
theorem position_of_cursorInv {d : Dec} (hcursor : cursorInv d) (hused : d.rp = d.src.length) (hr : d.r ≠ 7) :
    d.pos.toNat = 8 * d.src.length / 7 ∧ d.r.toNat = 8 * d.src.length % 7 := by
  obtain ⟨-, hmod, hrp, -⟩ := hcursor
  have hr7 : d.r.toNat ≠ 7 := fun h => hr (BitVec.eq_of_toNat_eq (by simpa using h))
  rw [hused] at hrp
  have hoctets : d.src.length = d.pos.toNat - d.pos.toNat / 8 := by omega
  omega

/-- Settles O42: the pull found the source used up, which leaves the cursor where its law puts the whole septets. -/
theorem endDropsOnlyTheRemainder : Obligations.EndDropsOnlyTheRemainder := by
  intro s t hinv hst ht hended
  rw [exec_eq] at ht
  obtain ⟨p, hp, rfl⟩ := execIn_decNext_iff.mp ht
  obtain ⟨-, hcursor, -⟩ := inv_iff.mp hinv
  obtain ⟨d1, hends, hp1⟩ := runsOut_of_pull_ended hst (pull_of_decNext hst hcursor.1 hp) hended
  obtain ⟨hcursor1, hpos, -, hused, hr⟩ := cursorInv_of_runsOut hcursor hends
  obtain ⟨hcount, hleft⟩ := position_of_cursorInv hcursor1 hused hr
  obtain ⟨-, -, -, rfl⟩ := hends
  rw [answerDec_dec, hp1]
  exact ⟨hcount, hleft, hpos⟩

end Sys2Proof.Proofs

/-! `DEC.NEXT` through `UnpackGet` (43_decoder R140; 41_bit_engine R102): what holds of a pull in every state, also
where the held bits do not fit `DEC.R`. -/

namespace Sys2Proof.Proofs

open Sys2Proof.Machine Sys2Proof.Laws

/-- All that `DEC.NEXT` can do after the escape, by what `UnpackGet` answers (43_decoder R140). -/
theorem decEscaped_cases (c : Config) (p : BitVec 32) (d : Dec) :
    (∃ d1, unpackGet c d = (.exhausted, d1) ∧
      decEscaped c p d = .ok (raiseDec .danglingEscape (septetVal escape) p d1)) ∨
    (∃ w d1, unpackGet c d = (.fail w, d1) ∧ decEscaped c p d = .ok (raiseDec .underlyingIOFailure 0 w d1)) ∨
    (∃ x d1, unpackGet c d = (.septet x, d1) ∧ countSeptet c d1 = none ∧
      decEscaped c p d = .error .positionOverflow) ∨
    (∃ x d1 d2, unpackGet c d = (.septet x, d1) ∧ countSeptet c d1 = some d2 ∧
      decEscaped c p d = .ok (resolve (lutDecX c.alphabet x) x (p + 1) d2)) := by
  rcases hget : unpackGet c d with ⟨x | _ | w, d1⟩
  · cases hcount : countSeptet c d1 with
    | none => exact .inr (.inr (.inl ⟨x, d1, rfl, hcount, by simp only [decEscaped, hget, hcount]⟩))
    | some d2 => exact .inr (.inr (.inr ⟨x, d1, d2, rfl, hcount, by simp only [decEscaped, hget, hcount]⟩))
  · exact .inl ⟨d1, rfl, by simp only [decEscaped, hget]⟩
  · exact .inr (.inl ⟨w, d1, rfl, by simp only [decEscaped, hget]⟩)

/-- All that `DEC.NEXT` can do in `RUN`, by what `UnpackGet` answers first (43_decoder R140). -/
theorem decRun_cases_of_unpackGet (c : Config) (d : Dec) :
    (∃ d1, unpackGet c d = (.exhausted, d1) ∧ decRun c d = .ok (endDec d1, okEnd)) ∨
    (∃ w d1, unpackGet c d = (.fail w, d1) ∧ decRun c d = .ok (raiseDec .underlyingIOFailure 0 w d1)) ∨
    (∃ x d1, unpackGet c d = (.septet x, d1) ∧ countSeptet c d1 = none ∧
      decRun c d = .error .positionOverflow) ∨
    (∃ x d1 d2, unpackGet c d = (.septet x, d1) ∧ countSeptet c d1 = some d2 ∧
      (decRun c d = decEscaped c d.pos d2 ∨ decRun c d = .ok (resolve (lutDecB c.alphabet x) x d.pos d2))) := by
  rcases hget : unpackGet c d with ⟨x | _ | w, d1⟩
  · cases hcount : countSeptet c d1 with
    | none => exact .inr (.inr (.inl ⟨x, d1, rfl, hcount, by simp only [decRun, hget, hcount]⟩))
    | some d2 =>
      refine .inr (.inr (.inr ⟨x, d1, d2, rfl, hcount, ?_⟩))
      by_cases hx : x = escape
      · exact .inl (by simp only [decRun, hget, hcount, if_pos hx])
      · exact .inr (by simp only [decRun, hget, hcount, if_neg hx])
  · exact .inl ⟨d1, rfl, by simp only [decRun, hget]⟩
  · exact .inr (.inl ⟨w, d1, rfl, by simp only [decRun, hget]⟩)

/-- `UnpackGet` leaves the position and the stored error; it fails only where the platform fails a read
(41_bit_engine R102). -/
theorem unpackGet_frame {c : Config} {d d1 : Dec} {u : Unpacked} (h : unpackGet c d = (u, d1)) :
    d1.pos = d.pos ∧ d1.err = d.err ∧ ∀ w, u = .fail w → failureAt c.ioFail.source d.reads = some w := by
  by_cases hr : d.r = 7
  · rw [unpackGet, if_pos hr] at h
    cases h
    exact ⟨rfl, rfl, nofun⟩
  · rcases srcRead_cases c d with ⟨w, hw, hread⟩ | ⟨-, -, hread⟩ | ⟨b, -, -, hread⟩ <;>
      simp only [unpackGet, if_neg hr, hread] at h <;> cases h
    · refine ⟨rfl, rfl, ?_⟩
      rintro w ⟨⟩
      exact hw
    · exact ⟨rfl, rfl, nofun⟩
    · exact ⟨rfl, rfl, nofun⟩

/-! ### The bits left -/

/-- How many bits the decoder has left: the octets not yet read, and the held bits (20_memory R44). -/
def bitsLeft (d : Dec) : Nat := 8 * (d.src.length - d.rp) + d.r.toNat

/-- Handing out a septet takes seven of the bits left, whatever the held bits are (41_bit_engine R102). -/
theorem bitsLeft_of_septet {c : Config} {d d1 : Dec} {x : Septet} (h : unpackGet c d = (.septet x, d1)) :
    bitsLeft d = bitsLeft d1 + 7 := by
  by_cases hr : d.r = 7
  · rw [unpackGet, if_pos hr] at h
    cases h
    simp [bitsLeft, hr]
  · rcases srcRead_cases c d with ⟨w, -, hread⟩ | ⟨-, -, hread⟩ | ⟨b, -, hoctet, hread⟩ <;>
      simp only [unpackGet, if_neg hr, hread] at h <;> cases h
    have hlt := (List.getElem?_eq_some_iff.mp hoctet).1
    have hrange := d.r.isLt
    have hne : d.r.toNat ≠ 7 := fun h => hr (BitVec.eq_of_toNat_eq (by simpa using h))
    have hr1 : (d.r + 1).toNat = d.r.toNat + 1 := by
      rw [BitVec.toNat_add]
      exact Nat.mod_eq_of_lt (show d.r.toNat + 1 < 2 ^ 3 by omega)
    simp only [bitsLeft, hr1]
    omega

/-- Counting a septet takes no bit (43_decoder R144). -/
theorem bitsLeft_of_count {c : Config} {d d1 : Dec} (h : countSeptet c d = some d1) :
    bitsLeft d1 = bitsLeft d := by
  obtain ⟨-, rfl⟩ := countSeptet_eq_some_iff.mp h
  rfl

/-- Resolving a septet takes no bit (43_decoder R140). -/
theorem bitsLeft_of_resolve (found : Option Codepoint) (x : Septet) (p : BitVec 32) (d : Dec) :
    bitsLeft (resolve found x p d).1 = bitsLeft d := by
  cases found <;> rfl

/-- A character answered after the escape gave no bit back (43_decoder R140). -/
theorem bitsLeft_of_decEscaped {c : Config} {p : BitVec 32} {d : Dec} {a : Dec × Response}
    (h : decEscaped c p d = .ok a) (hchar : a.2.kind = .char) : bitsLeft a.1 ≤ bitsLeft d := by
  rcases decEscaped_cases c p d with ⟨d1, -, he⟩ | ⟨w, d1, -, he⟩ | ⟨x, d1, -, -, he⟩ |
    ⟨x, d1, d2, hget, hcount, he⟩ <;> rw [he] at h <;> cases h
  · cases hchar
  · cases hchar
  · have hleft := bitsLeft_of_septet hget
    rw [bitsLeft_of_resolve, bitsLeft_of_count hcount]
    omega

/-- A character answered took at least seven bits (43_decoder R140, R142). -/
theorem bitsLeft_of_char {c : Config} {d : Dec} {a : Dec × Response} (h : decNext c d = .ok a)
    (hchar : a.2.kind = .char) : bitsLeft a.1 + 7 ≤ bitsLeft d := by
  cases hst : d.st with
  | ended => simp only [decNext, hst] at h; cases h; cases hchar
  | failed => simp only [decNext, hst] at h; cases h; cases hchar
  | run =>
    rw [decNext_of_run hst] at h
    rcases decRun_cases_of_unpackGet c d with ⟨d1, -, he⟩ | ⟨w, d1, -, he⟩ | ⟨x, d1, -, -, he⟩ |
      ⟨x, d1, d2, hget, hcount, he | he⟩ <;> rw [he] at h
    · cases h; cases hchar
    · cases h; cases hchar
    · cases h
    · rw [bitsLeft_of_septet hget, ← bitsLeft_of_count hcount]
      exact Nat.add_le_add_right (bitsLeft_of_decEscaped h hchar) 7
    · cases h
      rw [bitsLeft_of_resolve, bitsLeft_of_count hcount, bitsLeft_of_septet hget]

/-- A number of commands above the whole septets left is enough (30_encoding R72). -/
theorem decAllFuel_ne_outOfFuel {c : Config} {n : Nat} : ∀ {text : List Codepoint} {d : Dec},
    bitsLeft d / 7 < n → decAllFuel c n text d ≠ .outOfFuel := by
  induction n with
  | zero => exact fun h => absurd h (Nat.not_lt_zero _)
  | succ n ih =>
    intro text d hn
    unfold decAllFuel
    split
    case h_1 => exact nofun
    case h_2 d1 r hnext =>
      split
      case isTrue hchar =>
        have hleft : bitsLeft d1 + 7 ≤ bitsLeft d := bitsLeft_of_char hnext hchar.2
        exact ih (by omega)
      case isFalse => exact nofun

/-- Settles O44: the bound is one more than the whole septets left. -/
theorem collectingAlwaysStops : Obligations.CollectingAlwaysStops :=
  fun _ _ => decAllFuel_ne_outOfFuel (Nat.lt_succ_self _)

end Sys2Proof.Proofs

/-! `DEC.ALL` on a finished or padded source (20_memory R46; 41_bit_engine R108; 43_decoder R146): what it gives is
fixed by the whole septets of the source. -/

namespace Sys2Proof.Proofs

open Sys2Proof.Machine Sys2Proof.Laws

/-! ### Padding bits -/

/-- Equal bits, equal septets. -/
theorem septetBits_injective : Function.Injective septetBits := by
  intro l
  induction l with
  | nil =>
    intro m h
    have hlen := congrArg List.length h
    simp only [septetBits_length, List.length_nil] at hlen
    exact (List.length_eq_zero_iff.mp (by omega)).symm
  | cons s l ih =>
    intro m h
    cases m with
    | nil =>
      have hlen := congrArg List.length h
      simp [septetBits_cons] at hlen
    | cons x m =>
      rw [septetBits_cons, septetBits_cons] at h
      obtain ⟨rfl, hrest⟩ := cut7 h
      rw [ih hrest]

/-- What a fresh decoder's `DEC.ALL` gives is what the whole septets of its source say (30_encoding R72). -/
theorem decAll_fresh_expect {c : Config} {src : List Octet} {d : Dec} {l : List Septet} {tail : List Bool}
    (hio : c.ioFail = .never) (hfresh : isFreshDec src d) (hbits : octetBits src = septetBits l ++ tail)
    (htail : tail.length < 7) : agrees (expectedAll c l 0 []) (decAll c d) := by
  obtain ⟨hrest, hacc⟩ := fresh_rem hfresh
  have hlen : 8 * src.length = 7 * l.length + tail.length := by simpa using congrArg List.length hbits
  have hbound : l.length < decAllBound d := by
    rw [fresh_bound hfresh]
    omega
  obtain ⟨-, -, hpos, hst, -, -⟩ := hfresh
  rw [← hpos]
  exact decAll_expect hio l.length l _ [] d tail le_rfl hbound hst hacc (hrest.trans hbits) htail

/-- Two runs that agree with one expectation give the same answers. -/
theorem sameAnswers_of_agrees {o : Except Refusal (List Codepoint × Response)} {r r' : DecAllResult}
    (h : agrees o r) (h' : agrees o r') : sameAnswers r r' := by
  rcases o with refusal | ⟨text, last⟩
  · cases r with
    | refused => cases r' with
      | refused => exact h.symm.trans h'
      | stopped | outOfFuel => exact h'.elim
    | stopped | outOfFuel => exact h.elim
  · cases r with
    | stopped => cases r' with
      | stopped => exact ⟨h.1.symm.trans h'.1, h.2.symm.trans h'.2⟩
      | refused | outOfFuel => exact h'.elim
    | refused | outOfFuel => exact h.elim

/-- How many bits of the last of `n + 1` octets belong to a whole septet (20_memory R46). -/
abbrev dataBits (n : Nat) : Nat := 8 - 8 * (n + 1) % 7

/-- The whole septets of a source are its bits without those of the last octet above them (20_memory R46). -/
theorem septets_of_source {c : Config} {o : List Octet} {a : Octet} {d : Dec} (hio : c.ioFail = .never)
    (hfresh : isFreshDec (o ++ [a]) d) :
    ∃ l tail, octetBits (o ++ [a]) = septetBits l ++ tail ∧ tail.length < 7 ∧
      septetBits l = octetBits o ++ lowBits (dataBits o.length) a := by
  obtain ⟨hrest, hacc⟩ := fresh_rem hfresh
  obtain ⟨l, tail, hbits, htail⟩ := rem_septets hio _ d hacc le_rfl
  rw [hrest] at hbits
  have hlen : 8 * (o.length + 1) = 7 * l.length + tail.length := by
    simpa [Nat.mul_add] using congrArg List.length hbits
  refine ⟨l, tail, hbits, htail, ?_⟩
  have hdata : dataBits o.length = 8 - 8 * (o.length + 1) % 7 := rfl
  have hcut := lowBits_add (dataBits o.length) (8 * (o.length + 1) % 7) a
  rw [show dataBits o.length + 8 * (o.length + 1) % 7 = 8 by omega] at hcut
  rw [octetBits_append, octetBits_singleton, hcut, ← List.append_assoc] at hbits
  refine (List.append_inj_left hbits ?_).symm
  simp only [List.length_append, octetBits_length, lowBits_length, septetBits_length]
  omega

/-- Settles O43: the two sources have the same whole septets, and these fix what `DEC.ALL` gives. -/
theorem paddingBitsAreNeverLookedAt : Obligations.PaddingBitsAreNeverLookedAt := by
  intro c o a b d d' _ hio hfresh hfresh' hsame
  obtain ⟨l, tail, hbits, htail, hl⟩ := septets_of_source hio hfresh
  obtain ⟨l', tail', hbits', htail', hl'⟩ := septets_of_source hio hfresh'
  obtain rfl : l = l' := septetBits_injective (by rw [hl, hl', lowBits_congr hsame])
  exact sameAnswers_of_agrees (decAll_fresh_expect hio hfresh hbits htail)
    (decAll_fresh_expect hio hfresh' hbits' htail')

/-! ### The round trip -/

/-- Encoding a text whose characters are all in the table is packing its septets, and answers `OK` (30_encoding
R72). -/
theorem encStr_eq_packAll {c : Config} (hio : c.ioFail = .never) (text : List Codepoint) : ∀ {e : Enc},
    e.st = .opened → e.acc.toNat < 2 ^ e.k.toNat → (∀ cp ∈ text, (lutEnc c.alphabet cp).isSome = true) →
    encStr c text e = ((packAll c (textSeptets c.alphabet text) e).2, okNone) := by
  induction text with
  | nil => intros; rfl
  | cons cp text ih =>
    intro e hst hacc htable
    obtain ⟨hcp, htext⟩ := List.forall_mem_cons.mp htable
    obtain ⟨form, hform⟩ : ∃ form, septetForm c.alphabet cp = some form := by
      rw [← Option.ne_none_iff_exists', ne_eq, septetForm_eq_none_iff]
      exact Option.isSome_iff_ne_none.mp hcp
    obtain ⟨e1, hpack, hst1, hacc1⟩ := packAll_never hio form hst hacc
    have hfeed : encFeed c cp e = (e1, okNone) := by
      rw [encFeed_of_form hst hform, hpack]
      rfl
    rw [textSeptets_cons, hform, Option.getD_some, packAll_append hpack, ← ih hst1 hacc1 htext]
    simp only [encStr, hfeed]
    rfl

/-- `DEC.ALL` at a septet of the basic table (43_decoder R140). -/
theorem expectedAll_basic {c : Config} {s : Septet} {rest : List Septet} {p : BitVec 32} {t : List Codepoint}
    {cp : Codepoint} (hpos : p.toNat + 1 < 2 ^ c.posW) (hs : s ≠ escape) (hcp : lutDecB c.alphabet s = some cp) :
    expectedAll c (s :: rest) p t = expectedAll c rest (p + 1) (t ++ [cp]) := by
  conv => lhs; unfold expectedAll
  simp only [hpos, hs, hcp, not_true_eq_false, if_false]

/-- `DEC.ALL` at a septet that the basic table does not define (43_decoder R140). -/
theorem expectedAll_undefined {c : Config} {s : Septet} {rest : List Septet} {p : BitVec 32} {t : List Codepoint}
    (hpos : p.toNat + 1 < 2 ^ c.posW) (hs : s ≠ escape) (hundefined : lutDecB c.alphabet s = none) :
    expectedAll c (s :: rest) p t = .ok (t, raise .invalidSeptet (septetVal s) p) := by
  unfold expectedAll
  simp only [hpos, hs, hundefined, not_true_eq_false, if_false]

/-- `DEC.ALL` at the escape and a septet of the extension table (43_decoder R140). -/
theorem expectedAll_extended {c : Config} {x : Septet} {rest : List Septet} {p : BitVec 32} {t : List Codepoint}
    {cp : Codepoint} (hpos : p.toNat + 1 < 2 ^ c.posW) (hpos1 : (p + 1).toNat + 1 < 2 ^ c.posW)
    (hcp : lutDecX c.alphabet x = some cp) :
    expectedAll c (escape :: x :: rest) p t = expectedAll c rest (p + 1 + 1) (t ++ [cp]) := by
  conv => lhs; unfold expectedAll
  simp only [hpos, hpos1, hcp, not_true_eq_false, if_false, if_true]

/-- The septet form of a character in a well-formed table: a septet that is not the escape and decodes to it, or
the escape and a septet that decodes to it (40_alphabet R87). -/
theorem septetForm_decodes {a : Alphabet} {cp : Codepoint} (hwf : a.wellFormed = true)
    (hcp : (lutEnc a cp).isSome = true) :
    (∃ s, septetForm a cp = some [s] ∧ s ≠ escape ∧ lutDecB a s = some cp) ∨
    ∃ x, septetForm a cp = some [escape, x] ∧ lutDecX a x = some cp := by
  obtain ⟨⟨_ | _, s⟩, hs⟩ := Option.isSome_iff_exists.mp hcp
  · refine .inl ⟨s, septetForm_of_basic hs, ?_, (lutDecB_iff_lutEnc hwf).mpr hs⟩
    rintro rfl
    exact (lookupsAreInverse a hwf escape cp).2.2.2 hs
  · exact .inr ⟨s, septetForm_of_extended hs, (lutDecX_iff_lutEnc hwf).mpr hs⟩

/-- `DEC.ALL` collects a text from its septets and goes on after them (43_decoder R146). -/
theorem expectedAll_textSeptets {c : Config} (hwf : c.alphabet.wellFormed = true) (hwidth : c.posW ≤ 32)
    (rest : List Septet) (text : List Codepoint) : ∀ {p : BitVec 32} {t : List Codepoint},
    (∀ cp ∈ text, (lutEnc c.alphabet cp).isSome = true) →
    p.toNat + (textSeptets c.alphabet text).length < 2 ^ c.posW →
    expectedAll c (textSeptets c.alphabet text ++ rest) p t =
      expectedAll c rest (p + BitVec.ofNat 32 (textSeptets c.alphabet text).length) (t ++ text) := by
  have hle : 2 ^ c.posW ≤ 2 ^ 32 := Nat.pow_le_pow_right (by decide) hwidth
  have hnext {p : BitVec 32} (hp : p.toNat + 1 < 2 ^ 32) : (p + 1).toNat = p.toNat + 1 := by
    rw [BitVec.toNat_add]
    exact Nat.mod_eq_of_lt hp
  have hcount (p : BitVec 32) (n : Nat) : p + 1 + BitVec.ofNat 32 n = p + BitVec.ofNat 32 (n + 1) := by
    rw [BitVec.ofNat_add, BitVec.add_assoc, BitVec.add_comm 1]
    rfl
  induction text with
  | nil => simp [textSeptets]
  | cons cp text ih =>
    intro p t htable hpos
    obtain ⟨hcp, htext⟩ := List.forall_mem_cons.mp htable
    rcases septetForm_decodes hwf hcp with ⟨s, hform, hs, hdec⟩ | ⟨x, hform, hdec⟩ <;>
      simp only [textSeptets_cons, hform, Option.getD_some, List.length_cons, List.cons_append,
        List.nil_append] at hpos ⊢
    · have hp1 := hnext (p := p) (by omega)
      rw [expectedAll_basic (by omega) hs hdec, ih htext (by omega), hcount, List.append_assoc,
        List.singleton_append]
    · have hp1 := hnext (p := p) (by omega)
      have hp2 := hnext (p := p + 1) (by omega)
      rw [expectedAll_extended (by omega) (by omega) hdec, ih htext (by omega), hcount, hcount,
        List.append_assoc, List.singleton_append]

/-- The septet of padding bits is not the escape (43_decoder R146). -/
theorem padSeptet_ne_escape (c : Config) : padSeptet c ≠ escape := by
  unfold padSeptet
  split <;> decide

/-- A position of a well-formed configuration has at most 32 bits (00_scope R4, log 8). -/
theorem posW_le_of_wellFormed {c : Config} (h : c.wellFormed = true) : c.posW ≤ 32 := by
  simp only [Config.wellFormed, Bool.and_eq_true, decide_eq_true_eq, and_assoc] at h
  obtain ⟨-, -, hwidth, -⟩ := h
  exact hwidth

/-- A run that agrees with an expected end stopped there. -/
theorem stopped_of_agrees {text : List Codepoint} {last : Response} {r : DecAllResult}
    (h : agrees (.ok (text, last)) r) : ∃ d1, r = .stopped text last d1 := by
  cases r with
  | stopped text' last' d1 =>
    obtain ⟨rfl, rfl⟩ := h
    exact ⟨d1, rfl⟩
  | refused | outOfFuel => exact h.elim

/-- Settles O45: the finished sink is the text's septets, perhaps one of padding, and fewer than seven bits more;
the text is collected from its septets, and what follows it is decided by the padding septet. -/
theorem textsSurviveTheRoundTrip : Obligations.TextsSurviveTheRoundTrip := by
  intro c text e d hwf hio hfresh htable hpos hdec
  have hstr := encStr_eq_packAll hio text hfresh.2.2.1 (acc_lt_of_fresh hfresh) htable
  obtain ⟨f, hfinish, -, hbits⟩ := encFinish_packAll_bits hio (textSeptets c.alphabet text) hfresh
  rw [hstr, hfinish] at hdec
  obtain ⟨q, hpad, hq⟩ := pad_split c _ (textSeptets c.alphabet text).length rfl
  rw [hpad, ← List.append_assoc, ← septetBits_append] at hbits
  have hall := decAll_fresh_expect hio hdec hbits (by simpa using hq)
  rw [expectedAll_textSeptets (alphabet_wellFormed_of_config hwf) (posW_le_of_wellFormed hwf) _ text htable
    (by simpa using Nat.lt_of_succ_lt hpos), zero_add, List.nil_append] at hall
  have hwidth : 2 ^ c.posW ≤ 2 ^ 32 := Nat.pow_le_pow_right (by decide) (posW_le_of_wellFormed hwf)
  have hlast : (BitVec.ofNat 32 (textSeptets c.alphabet text).length).toNat + 1 < 2 ^ c.posW := by
    rw [BitVec.toNat_ofNat]
    omega
  refine ⟨by rw [hstr], fun hmod => ?whole, fun hmod cp hcp => ?decodes, fun hmod hundefined => ?undefined⟩
  case whole =>
    rw [if_neg hmod] at hall
    exact stopped_of_agrees hall
  case decodes =>
    rw [if_pos hmod, expectedAll_basic hlast (padSeptet_ne_escape c) hcp] at hall
    exact stopped_of_agrees hall
  case undefined =>
    rw [if_pos hmod, expectedAll_undefined hlast (padSeptet_ne_escape c) hundefined] at hall
    exact stopped_of_agrees hall

end Sys2Proof.Proofs

/-! The whole machine: this hardware as the baseline block (00_scope R4), where failures come from (20_memory R51),
the order of the two ports (20_memory R55), and the one stop (93 U9). -/

namespace Sys2Proof.Proofs

open Sys2Proof.Machine Sys2Proof.Laws

/-- The host's run of the machine is the baseline block's (00_scope R4). -/
theorem run_eq_runIn (n : Nat) : ∀ s : State, Host.Core.run core n s = runIn Config.gsm7Core n s := by
  induction n with
  | zero => exact fun _ => rfl
  | succ n ih =>
    intro s
    have hstep : core.step s = stepIn Config.gsm7Core s := step_eq s
    simp only [Host.Core.run, runIn, hstep]
    cases stepIn Config.gsm7Core s with
    | next t => exact ih t
    | fault f => rfl
    | refused r => rfl

/-- Settles O48: command, step and run by `exec_eq`, `step_eq` and `run_eq_runIn`; the values by definition. -/
theorem thisHardwareIsTheBaselineBlock : Obligations.ThisHardwareIsTheBaselineBlock :=
  ⟨exec_eq, step_eq, run_eq_runIn, ⟨rfl, rfl, rfl, rfl, rfl⟩, fun _ => ⟨rfl, rfl⟩⟩

/-! ### Failures come from the platform -/

/-- A septet's transfer does not fail on a platform that never fails (20_memory R51). -/
theorem packPut_fst_never {c : Config} (hio : c.ioFail = .never) (s : Septet) (e : Enc) :
    (packPut c s e).1 = none := by
  by_cases hk : 8 ≤ e.k.toNat + 7 <;> simp [packPut, sinkWrite, hio, hk]

/-- Packing ends in no failure on a platform that never fails, whatever the held bits are (20_memory R51). -/
theorem packAll_fst_never {c : Config} (hio : c.ioFail = .never) (l : List Septet) (e : Enc) :
    (packAll c l e).1 = none := by
  induction l generalizing e with
  | nil => rfl
  | cons s l ih =>
    have hput : packPut c s e = (none, (packPut c s e).2) := Prod.ext (packPut_fst_never hio s e) rfl
    rw [packAll_cons_ok hput]
    exact ih _

/-- A feed answers no failure on a platform that never fails (20_memory R51). -/
theorem encFeed_status_never {c : Config} (hio : c.ioFail = .never) (cp : Codepoint) (e : Enc) :
    (encFeed c cp e).2.status ≠ .underlyingIOFailure := by
  rcases encFeed_cases c cp e with ⟨-, hfeed⟩ | ⟨-, -, hfeed⟩ | ⟨l, -, -, -, -, -, hfeed⟩ <;> rw [hfeed]
  · simp [encoderClosed, raise]
  · simp [unsupportedCharacter, raise]
  · simp [packAll_fst_never hio, packResponse, okNone]

/-- A finish answers no failure on a platform that never fails (20_memory R51). -/
theorem encFinish_status_never {c : Config} (hio : c.ioFail = .never) (e : Enc) :
    (encFinish c e).2.status ≠ .underlyingIOFailure := by
  cases hst : e.st with
  | closed => simp [encFinish_of_closed hst, encoderClosed, raise]
  | opened => simp [encFinish_of_accepts hst fun _ => by rw [hio]; rfl, okNone]

/-- What a pull leaves and answers holds no `UnderlyingIOFailure`. -/
def noFailure (a : Dec × Response) : Prop :=
  a.1.err.kind ≠ .underlyingIOFailure ∧ a.2.status ≠ .underlyingIOFailure

/-- An error of another kind is no failure, and is what is stored (60_exceptions R169). -/
theorem noFailure_raiseDec {kind : Status} {val : BitVec 21} {aux : Word} {d : Dec}
    (hkind : kind ≠ .underlyingIOFailure) : noFailure (raiseDec kind val aux d) :=
  ⟨hkind, hkind⟩

/-- Resolving a septet is no failure (43_decoder R140). -/
theorem noFailure_resolve (found : Option Codepoint) (x : Septet) (p : BitVec 32) {d : Dec}
    (herr : d.err.kind ≠ .underlyingIOFailure) : noFailure (resolve found x p d) := by
  cases found with
  | none => exact noFailure_raiseDec (by decide)
  | some cp => exact ⟨herr, by simp [resolve, okChar]⟩

/-- Taking and counting a septet stores no error (43_decoder R144). -/
theorem err_of_counted {c : Config} {d d1 d2 : Dec} {u : Unpacked} (hget : unpackGet c d = (u, d1))
    (hcount : countSeptet c d1 = some d2) : d2.err = d.err := by
  obtain ⟨-, rfl⟩ := countSeptet_eq_some_iff.mp hcount
  exact (unpackGet_frame hget).2.1

/-- `UnpackGet` does not fail on a platform that never fails (20_memory R51). -/
theorem unpackGet_ne_fail {c : Config} (hio : c.ioFail = .never) {d d1 : Dec} {w : Word} :
    unpackGet c d ≠ (.fail w, d1) := by
  intro hget
  have hw := (unpackGet_frame hget).2.2 w rfl
  simp [hio] at hw

/-- `DEC.NEXT` after the escape is no failure on a platform that never fails (20_memory R51). -/
theorem noFailure_decEscaped {c : Config} (hio : c.ioFail = .never) {p : BitVec 32} {d : Dec} {a : Dec × Response}
    (herr : d.err.kind ≠ .underlyingIOFailure) (h : decEscaped c p d = .ok a) : noFailure a := by
  rcases decEscaped_cases c p d with ⟨d1, -, he⟩ | ⟨w, d1, hget, -⟩ | ⟨x, d1, -, -, he⟩ |
    ⟨x, d1, d2, hget, hcount, he⟩
  · rw [he] at h; cases h
    exact noFailure_raiseDec (by decide)
  · exact absurd hget (unpackGet_ne_fail hio)
  · rw [he] at h; cases h
  · rw [he] at h; cases h
    exact noFailure_resolve _ _ _ (by rwa [err_of_counted hget hcount])

/-- `DEC.NEXT` is no failure on a platform that never fails, unless one is stored (20_memory R51). -/
theorem noFailure_decNext {c : Config} (hio : c.ioFail = .never) {d : Dec} {a : Dec × Response}
    (herr : d.err.kind ≠ .underlyingIOFailure) (h : decNext c d = .ok a) : noFailure a := by
  cases hst : d.st with
  | ended => simp only [decNext, hst] at h; cases h; exact ⟨herr, by simp [okEnd]⟩
  | failed => simp only [decNext, hst] at h; cases h; exact ⟨herr, herr⟩
  | run =>
    rw [decNext_of_run hst] at h
    rcases decRun_cases_of_unpackGet c d with ⟨d1, hget, he⟩ | ⟨w, d1, hget, -⟩ | ⟨x, d1, -, -, he⟩ |
      ⟨x, d1, d2, hget, hcount, he | he⟩
    · rw [he] at h; cases h
      exact ⟨by rwa [endDec_err, (unpackGet_frame hget).2.1], by simp [okEnd]⟩
    · exact absurd hget (unpackGet_ne_fail hio)
    · rw [he] at h; cases h
    · rw [he] at h
      exact noFailure_decEscaped hio (by rwa [err_of_counted hget hcount]) h
    · rw [he] at h; cases h
      exact noFailure_resolve _ _ _ (by rwa [err_of_counted hget hcount])

/-- One response that is no failure adds none to those given. -/
theorem mem_of_failure_append {given : List Response} {r : Response} (hr : r.status ≠ .underlyingIOFailure) :
    ∀ r' ∈ given ++ [r], r'.status = .underlyingIOFailure → r' ∈ given := by
  intro r' hmem hstatus
  rcases List.mem_append.mp hmem with h | h
  · exact h
  · rw [List.mem_singleton.mp h] at hstatus
    exact absurd hstatus hr

/-- From `s` to `t` no `UnderlyingIOFailure` came in on `ENC`'s port, and, unless one was stored, none on `DEC`'s
(20_memory R51). -/
def addsNoFailure (s t : State) : Prop :=
  (∀ r ∈ t.encRsp, r.status = .underlyingIOFailure → r ∈ s.encRsp) ∧
  (s.dec.err.kind ≠ .underlyingIOFailure → t.dec.err.kind ≠ .underlyingIOFailure ∧
    ∀ r ∈ t.decRsp, r.status = .underlyingIOFailure → r ∈ s.decRsp)

/-- An answer of the encoder that is no failure adds none. -/
theorem addsNoFailure_answerEnc (s : State) {a : Enc × Response} (h : a.2.status ≠ .underlyingIOFailure) :
    addsNoFailure s (answerEnc s a) :=
  ⟨mem_of_failure_append h, fun herr => ⟨herr, fun _ hr _ => hr⟩⟩

/-- An answer of the decoder that is no failure adds none. -/
theorem addsNoFailure_answerDec {s : State} {a : Dec × Response}
    (h : s.dec.err.kind ≠ .underlyingIOFailure → noFailure a) : addsNoFailure s (answerDec s a) :=
  ⟨fun _ hr _ => hr, fun herr => ⟨(h herr).1, mem_of_failure_append (h herr).2⟩⟩

/-- No command adds a failure on a platform that never fails (20_memory R51). -/
theorem addsNoFailure_execIn {c : Config} {i : Instr} {s t : State} (hio : c.ioFail = .never)
    (ht : execIn c i s = .next t) : addsNoFailure s t := by
  cases i with
  | encFeed cp => cases ht; exact addsNoFailure_answerEnc s (encFeed_status_never hio _ _)
  | encFinish => cases ht; exact addsNoFailure_answerEnc s (encFinish_status_never hio _)
  | encRst => cases ht; exact addsNoFailure_answerEnc s (by simp [encRst, okNone])
  | decNext =>
    obtain ⟨a, ha, rfl⟩ := execIn_decNext_iff.mp ht
    exact addsNoFailure_answerDec fun herr => noFailure_decNext hio herr ha
  | decRst => cases ht; exact addsNoFailure_answerDec fun _ => ⟨by simp [decRst], by simp [decRst, okNone]⟩

/-- Settles O49: event by event; a command adds none, and no other event answers a failure. -/
theorem noFailureWithoutThePlatform : Obligations.NoFailureWithoutThePlatform := by
  intro c s t hio ht
  rcases stepIn_cases c s with ⟨-, h⟩ | ⟨src, rest, -, h⟩ | ⟨w, rest, -, -, h⟩ | ⟨w, src, rest, -, -, h⟩ |
    ⟨w, rest, i, -, -, -, h⟩ | ⟨w, src, rest, i, -, -, -, h⟩ <;> rw [h] at ht
  · cases ht
    exact ⟨fun _ hr _ => hr, fun herr => ⟨herr, fun _ hr _ => hr⟩⟩
  · cases ht
    exact ⟨fun _ hr _ => hr, fun _ => ⟨by simp, fun _ hr _ => hr⟩⟩
  · cases ht
    exact addsNoFailure_answerEnc { s with pending := rest } (by simp [illegalCommand, raise])
  · cases ht
    exact addsNoFailure_answerDec (s := { s with pending := rest, srcIn := src })
      fun herr => ⟨herr, by simp [illegalCommand, raise]⟩
  · exact addsNoFailure_execIn (s := { s with pending := rest }) hio ht
  · exact addsNoFailure_execIn (s := { s with pending := rest, srcIn := src }) hio ht

/-! ### The order of the two ports -/

/-- Settles O51: each command acts through a function of `ENC` or of `DEC` alone, and the two answers stand in
different fields. -/
theorem commandsOfTheTwoPortsCommute : Obligations.CommandsOfTheTwoPortsCommute := by
  intro i j s t hi hj
  obtain ⟨f, hf⟩ := execIn_enc_of_enc_alone (c := Config.gsm7Core) hi
  obtain ⟨g, hg⟩ := execIn_dec_of_dec_alone (c := Config.gsm7Core) hj
  simp only [exec_eq, hf, hg]
  constructor
  · rintro ⟨u, ⟨⟩, a, ha, rfl⟩
    exact ⟨answerDec s a, ⟨a, ha, rfl⟩, rfl⟩
  · rintro ⟨v, ⟨a, ha, rfl⟩, ⟨⟩⟩
    exact ⟨answerEnc s (f s.enc), rfl, a, ha, rfl⟩

/-! ### The one stop -/

/-- `DEC.NEXT` after the escape is refused only where the septet cannot be counted (93 U9; log 8). -/
theorem decEscaped_eq_error {c : Config} {p : BitVec 32} {d : Dec} {r : Refusal} (h : decEscaped c p d = .error r) :
    r = .positionOverflow ∧ ¬ d.pos.toNat + 1 < 2 ^ c.posW := by
  rcases decEscaped_cases c p d with ⟨d1, -, he⟩ | ⟨w, d1, -, he⟩ | ⟨x, d1, hget, hcount, he⟩ |
    ⟨x, d1, d2, -, -, he⟩ <;> rw [he] at h <;> cases h
  rw [← (unpackGet_frame hget).1]
  exact ⟨rfl, countSeptet_eq_none_iff.mp hcount⟩

/-- A pull is refused only in `RUN`, within two positions of the last (93 U9; log 8). -/
theorem decNext_eq_error {c : Config} {d : Dec} {r : Refusal} (h : decNext c d = .error r) :
    r = .positionOverflow ∧ d.st = .run ∧ 2 ^ c.posW - 2 ≤ d.pos.toNat := by
  cases hst : d.st with
  | ended => simp only [decNext, hst] at h; cases h
  | failed => simp only [decNext, hst] at h; cases h
  | run =>
    rw [decNext_of_run hst] at h
    rcases decRun_cases_of_unpackGet c d with ⟨d1, -, he⟩ | ⟨w, d1, -, he⟩ | ⟨x, d1, hget, hcount, he⟩ |
      ⟨x, d1, d2, hget, hcount, he | he⟩ <;> rw [he] at h
    · cases h
    · cases h
    · cases h
      have hlast := countSeptet_eq_none_iff.mp hcount
      rw [(unpackGet_frame hget).1] at hlast
      exact ⟨rfl, rfl, by omega⟩
    · obtain ⟨hr, hlast⟩ := decEscaped_eq_error h
      obtain ⟨-, rfl⟩ := countSeptet_eq_some_iff.mp hcount
      have hle : (d1.pos + 1).toNat ≤ d1.pos.toNat + 1 := by
        rw [BitVec.toNat_add]
        exact Nat.mod_le _ _
      rw [(unpackGet_frame hget).1] at hlast hle
      dsimp only at hlast
      exact ⟨hr, rfl, by omega⟩
    · cases h

/-- A command goes to a next state, or it is a pull at one of the last two positions (93 U9; log 8, log 15). -/
theorem execIn_outcomes (c : Config) (i : Instr) (s : State) :
    (∃ t, execIn c i s = .next t) ∨
    (execIn c i s = .refused .positionOverflow ∧ s.dec.st = .run ∧ 2 ^ c.posW - 2 ≤ s.dec.pos.toNat) := by
  cases i with
  | encFeed cp => exact .inl ⟨_, rfl⟩
  | encFinish => exact .inl ⟨_, rfl⟩
  | encRst => exact .inl ⟨_, rfl⟩
  | decNext =>
    cases hnext : decNext c s.dec with
    | ok a => exact .inl ⟨_, execIn_decNext_of_ok hnext⟩
    | error r =>
      obtain ⟨rfl, hst, hpos⟩ := decNext_eq_error hnext
      exact .inr ⟨execIn_decNext_of_error hnext, hst, hpos⟩
  | decRst => exact .inl ⟨_, rfl⟩

/-- Settles O52: every event but a command goes to a next state, and a command stops only as
`execIn_outcomes` says. -/
theorem onlyPositionOverflowStops : Obligations.OnlyPositionOverflowStops := by
  intro s
  rw [step_eq]
  rcases stepIn_cases Config.gsm7Core s with ⟨-, h⟩ | ⟨src, rest, -, h⟩ | ⟨w, rest, -, -, h⟩ |
    ⟨w, src, rest, -, -, h⟩ | ⟨w, rest, i, -, -, -, h⟩ | ⟨w, src, rest, i, -, -, -, h⟩ <;> rw [h]
  · exact .inl ⟨_, rfl⟩
  · exact .inl ⟨_, rfl⟩
  · exact .inl ⟨_, rfl⟩
  · exact .inl ⟨_, rfl⟩
  · exact execIn_outcomes Config.gsm7Core i { s with pending := rest }
  · exact execIn_outcomes Config.gsm7Core i { s with pending := rest, srcIn := src }

end Sys2Proof.Proofs
